-- ==== Sys2Proof/Word.lean ====
section
/-! DEFINITION. The bit vectors of the waveform quantization engine: the widths the spec gives its words,
samples, addresses and operands (rules R5, R6, R21, R22, R60, R64). -/

namespace Sys2Proof

/-- A command word (R60): 32 bits, bit 31 the most significant. -/
abbrev CmdWord := BitVec 32

/-- A word of the register space as the host reads it (R30, R123). -/
abbrev RegWord := BitVec 32

/-- A Sample (R21): an unsigned integer in [0, 255], held in 8 bits. -/
abbrev Sample := BitVec 8

/-- An address of the result memory, and the width of LEN (R22, R23): 18 bits. -/
abbrev ImgAddr := BitVec 18

/-- A sample-count operand `n` or `bs` (R64): 16 bits, unsigned. -/
abbrev Count := BitVec 16

/-- The `num_blocks` operand `nb` (R64): 8 bits, unsigned. -/
abbrev BlockCount := BitVec 8

end Sys2Proof
end

