-- ==== Sys2Proof/Config.lean ====
section
/-! DEFINITION. What is fixed for the machine and never changes in a run: the parameters of rules R5 and R6, the
four shapes in their fixed order (R33), and the tie rule (R81, I2). -/

namespace Sys2Proof

/-- The four shapes (R33), in the fixed order of the ROM Image. -/
inductive Shape where
  | sine
  | square
  | sawtooth
  | triangle
deriving DecidableEq, Repr

/-- The two tie rules D00 names (R81). The engine's is `halfToEven`; the other is kept so that a statement can say
where the choice shows and where it does not (I2). -/
inductive TieRule where
  | halfToEven
  | halfAway
deriving DecidableEq, Repr

namespace Config

/-- `QMAX` (R5): the largest Sample, the full-scale amplitude. -/
def qmax : Nat := 255

/-- `N` (R5): the default block size. -/
def defaultBlockSize : Count := 256

/-- `B` (R5): the only legal `num_blocks`, and the default. -/
def numBlocks : BlockCount := 4

/-- `SHAPES` (R5, R33): the block order of the ROM Image. -/
def shapes : List Shape := [.sine, .square, .sawtooth, .triangle]

/-- `NMAX` (R6): the largest sample count a command can carry. -/
def countMax : Nat := 65535

/-- The largest block count a command can carry (R64). -/
def blockCountMax : Nat := 255

/-- `CAP` (R6, R22): the number of cells of the result memory. -/
def cap : Nat := 262144

/-- `ROUND` (R6, R81, R89): the one tie rule of every rounding in the engine. -/
def tieRule : TieRule := .halfToEven

end Config

end Sys2Proof
end

