-- ==== Sys2Proof/Syntax.lean ====
section
/-! DEFINITION. The commands: one constructor per row of spec/opcode_table.json (R63), its operands as the fields of
the command word (R64). -/

namespace Sys2Proof

/-- The five commands of the opcode map (R63). No operand is signed, scaled or split (R64). -/
inductive Instr where
  /-- `GEN_SINE n` (R101). -/
  | genSine (n : Count)
  /-- `GEN_SQUARE n` (R102). -/
  | genSquare (n : Count)
  /-- `GEN_SAW n` (R103). -/
  | genSaw (n : Count)
  /-- `GEN_TRI n` (R104). -/
  | genTri (n : Count)
  /-- `BUILD_ROM nb, bs` (R120). -/
  | buildRom (nb : BlockCount) (bs : Count)
deriving DecidableEq, Repr

end Sys2Proof
end

