-- ==== Sys2Proof/WellFormed.lean ====
section
/-! DEFINITION. Which command a host may spell (R68). Every `Instr` is well-formed by its type: each operand is exactly
as wide as its field (R64) and every field value is passed to the operation. What can be ill-formed is a command as it
is WRITTEN, whose operands are natural numbers: the assembler refuses a count above 65535 and a block count above 255. -/

namespace Sys2Proof

/-- A command as written (R68): an omitted operand of the build command takes its default. -/
inductive Source where
  /-- A generator command with its count. -/
  | gen (shape : Shape) (n : Nat)
  /-- The build command with its two optional operands. -/
  | build (nb : Option Nat) (bs : Option Nat)
deriving DecidableEq, Repr

/-- A count operand some word spells (R64, R68). -/
def countFits (n : Nat) : Bool := decide (n ≤ Config.countMax)

/-- A block count some word spells (R64, R68). -/
def blockCountFits (n : Nat) : Bool := decide (n ≤ Config.blockCountMax)

/-- The assembler's check (R68): every operand written fits its field. -/
def Source.wellFormed : Source → Bool
  | .gen _ n => countFits n
  | .build nb bs => nb.all blockCountFits && bs.all countFits

end Sys2Proof
end

