-- ==== Sys2Proof/Decode.lean ====
section
/-! DEFINITION. The command encoding (30_encoding.md): `decode`, total on every word and refusing by name (R69, R65);
then `encode`, written from the same formats (R61, R62), the opcode map (R63), the assembler's expansion of a written
command (R68), and the host's `decodeTableWord`. -/

namespace Sys2Proof

/-- The code of a shape (R33): its position in the fixed order. -/
def Shape.code : Shape → BitVec 2
  | .sine => 0
  | .square => 1
  | .sawtooth => 2
  | .triangle => 3

/-- The shape a two-bit code names (R33). -/
def Shape.ofCode (c : BitVec 2) : Shape :=
  if c = 0 then .sine else if c = 1 then .square else if c = 2 then .sawtooth else .triangle

/-- The generator command of a shape (R63: the low two bits of `op` are the Shape code). -/
def Instr.ofShape : Shape → Count → Instr
  | .sine, n => .genSine n
  | .square, n => .genSquare n
  | .sawtooth, n => .genSaw n
  | .triangle, n => .genTri n

/-- The three ways a word is illegal (R65). Executing such a word raises the Domain Error with cause 1, so none of them
stops the machine. -/
inductive IllegalWord where
  /-- (a) `op` is 0b101, 0b110 or 0b111. -/
  | reservedOp (op : BitVec 3)
  /-- (b) format G with a non-zero `rsvG`. -/
  | reservedBitsG (rsv : BitVec 13)
  /-- (c) format B with a non-zero `rsvB`. -/
  | reservedBitsB (rsv : BitVec 5)
deriving DecidableEq, Repr

/-- The field `op = w[31:29]` (R60). -/
def opField (w : CmdWord) : BitVec 3 := w.extractLsb' 29 3

/-- The field `shape = op[1:0] = w[30:29]` (R61). -/
def shapeField (w : CmdWord) : BitVec 2 := w.extractLsb' 29 2

/-- The field `rsvG = w[28:16]` (R61). -/
def rsvGField (w : CmdWord) : BitVec 13 := w.extractLsb' 16 13

/-- The field `rsvB = w[28:24]` (R62). -/
def rsvBField (w : CmdWord) : BitVec 5 := w.extractLsb' 24 5

/-- The field `nb = w[23:16]` (R62, R64). -/
def nbField (w : CmdWord) : BlockCount := w.extractLsb' 16 8

/-- The field `n` or `bs`, `w[15:0]` (R61, R62, R64). -/
def countField (w : CmdWord) : Count := w.extractLsb' 0 16

/-- `Decode(w)` of R69, in its order of tests; it reads nothing but `w`. -/
def decode (w : CmdWord) : Except IllegalWord Instr :=
  if (opField w).getLsbD 2 = false then
    if rsvGField w ≠ 0 then .error (.reservedBitsG (rsvGField w))
    else .ok (Instr.ofShape (Shape.ofCode (shapeField w)) (countField w))
  else if opField w = 0b100#3 then
    if rsvBField w ≠ 0 then .error (.reservedBitsB (rsvBField w))
    else .ok (.buildRom (nbField w) (countField w))
  else .error (.reservedOp (opField w))

/-- The word of a generator command (R61): `op[2] = 0`, the shape code, thirteen zeros, the count. -/
def encodeG (s : Shape) (n : Count) : CmdWord := 0#1 ++ s.code ++ 0#13 ++ n

/-- The word of the build command (R62): `op = 0b100`, five zeros, `num_blocks`, `block_size`. -/
def encodeB (nb : BlockCount) (bs : Count) : CmdWord := 0b100#3 ++ 0#5 ++ nb ++ bs

/-- The word of a command (R61, R62, R69). -/
def encode : Instr → CmdWord
  | .genSine n => encodeG .sine n
  | .genSquare n => encodeG .square n
  | .genSaw n => encodeG .sawtooth n
  | .genTri n => encodeG .triangle n
  | .buildRom nb bs => encodeB nb bs

/-- The `mask` column of the opcode map (R63). -/
def opcodeMask : Instr → CmdWord
  | .genSine _ => 0xFFFF0000
  | .genSquare _ => 0xFFFF0000
  | .genSaw _ => 0xFFFF0000
  | .genTri _ => 0xFFFF0000
  | .buildRom _ _ => 0xFF000000

/-- The `match` column of the opcode map (R63). -/
def opcodeMatch : Instr → CmdWord
  | .genSine _ => 0x00000000
  | .genSquare _ => 0x20000000
  | .genSaw _ => 0x40000000
  | .genTri _ => 0x60000000
  | .buildRom _ _ => 0x80000000

/-- The command a written command expands to (R68): nothing where an operand does not fit its field; an omitted
`num_blocks` is 4 and an omitted `block_size` is 256. -/
def assemble (src : Source) : Option Instr :=
  if src.wellFormed then
    match src with
    | .gen s n => some (Instr.ofShape s (BitVec.ofNat 16 n))
    | .build nb bs =>
      some (.buildRom ((nb.map (BitVec.ofNat 8)).getD Config.numBlocks)
        ((bs.map (BitVec.ofNat 16)).getD Config.defaultBlockSize))
  else none

/-- The command the decoder reads from a table row's bits: the row's word is the command word itself, bit 0 its least
significant bit (R60), and every bit above `nbits` is 0. -/
def decodeTableWord (nbits w : Nat) : Option Instr :=
  match decode (BitVec.ofNat 32 (w % 2 ^ nbits)) with
  | .ok i => some i
  | .error _ => none

end Sys2Proof
end

