-- ==== Sys2Proof/Machine/State.lean ====
section
/-! DEFINITION. The state of the engine (R20, R22, R23, R24) with the host's side of the interface (R142, R143) as plain
data, the causes of the Domain Error (R151), the reasons a step or a read can end without a value, and the state
after reset (R32). -/

namespace Sys2Proof.Machine

/-- The causes of the Domain Error (R151), codes 1 to 4. -/
inductive Cause where
  | illegalCommand
  | blockCount
  | countTooSmall
  | countOdd
deriving DecidableEq, Repr

/-- Why a move has no value. -/
inductive Fault where
  /-- Raised by `ReadImg(a)` on a cell that holds no Sample (R122, I1). Safe: the answer carries no value and the run is
  marked as gone wrong (R143); the engine's state does not change and the machine goes on. -/
  | unwrittenCell (a : ImgAddr)
deriving DecidableEq, Repr

/-- Why a step has no meaning. -/
inductive Refusal where
  /-- Raised by `exec` for an instruction the model gives no meaning yet. Safe: the machine stops. No arm raises it. -/
  | notModelled (mnemonic : String)
deriving DecidableEq, Repr

/-- The five moves of the host interface (R142). -/
inductive Move where
  /-- `Reset()` (R180). -/
  | reset
  /-- `Issue(w)` (R25, R69): a write of `w` to the command port. -/
  | issue (w : CmdWord)
  /-- `ReadStatus()` (R123). -/
  | readStatus
  /-- `ReadLen()` (R123). -/
  | readLen
  /-- `ReadImg(a)` (R122). -/
  | readImg (a : ImgAddr)
deriving DecidableEq, Repr

/-- What a read move returned to the host (R142, R143). -/
inductive Answer where
  /-- The STATUS word. -/
  | status (v : RegWord)
  /-- LEN as a 32-bit word. -/
  | len (v : RegWord)
  /-- A Sample. -/
  | sample (v : Sample)
  /-- No value: the read faulted, and the run has gone wrong. -/
  | fault (r : Fault)
deriving DecidableEq, Repr

/-- The result memory as the cells that hold a Sample, at strictly rising addresses; an unlisted cell is
`unwritten` (R22) and reads as no value. -/
abbrev Memory := List Host.Cell

/-- The engine's three pieces of state (R20) and the host's side of a run. -/
structure State where
  /-- `IMG` (R22): the result memory. -/
  img : Memory
  /-- `LEN` (R23): the result length. -/
  len : ImgAddr
  /-- `STATUS` (R24): the status word. -/
  status : RegWord
  /-- The host's moves not yet made, the next one first (R142). The model's own field, log entry 1. -/
  moves : List Move
  /-- What the read moves returned, oldest first (R143). The model's own field, log entry 1. -/
  answers : List Answer
deriving DecidableEq, Repr

/-- The state after reset (R32): every cell unwritten, LEN 0, STATUS 0. No move is pending and none has answered
(log entry 1). -/
def State.reset : State :=
  { img := [], len := 0, status := 0, moves := [], answers := [] }

end Sys2Proof.Machine
end

