-- ==== Sys2Proof/Machine/Flags.lean ====
section
/-! DEFINITION. The STATUS word (R24): its fields as the host reads them, one write per field, and what the two ends of
a command do to it (R100, R152). -/

namespace Sys2Proof.Machine

/-- The cause code of a Domain Error (R151). -/
def Cause.code : Cause → BitVec 3
  | .illegalCommand => 1
  | .blockCount => 2
  | .countTooSmall => 3
  | .countOdd => 4

/-- `STATUS.VALID`, bit [0] (R24). -/
def statusValid (w : RegWord) : Bool := w.getLsbD 0

/-- `STATUS.ERR`, bit [1] (R24). -/
def statusErr (w : RegWord) : Bool := w.getLsbD 1

/-- `STATUS.CAUSE`, bits [4:2] (R24). -/
def statusCause (w : RegWord) : BitVec 3 := w.extractLsb' 2 3

/-- `STATUS.ESEEN`, bit [5] (R24). -/
def statusEseen (w : RegWord) : Bool := w.getLsbD 5

/-- The reserved bits [31:6] of STATUS (R24). -/
def statusReserved (w : RegWord) : BitVec 26 := w.extractLsb' 6 26

/-- The STATUS word with the given fields (R24). -/
def statusPack (reserved : BitVec 26) (eseen : Bool) (cause : BitVec 3) (err valid : Bool) : RegWord :=
  reserved ++ BitVec.ofBool eseen ++ cause ++ BitVec.ofBool err ++ BitVec.ofBool valid

/-- What `Commit` does to STATUS (R100): VALID 1, ERR 0, CAUSE 0; ESEEN and the reserved bits keep their values. -/
def statusCommit (w : RegWord) : RegWord :=
  statusPack (statusReserved w) (statusEseen w) 0 false true

/-- What the error entry does to STATUS (R152): VALID 0, ERR 1, CAUSE `c`, ESEEN 1; the reserved bits keep their
values. -/
def statusError (w : RegWord) (c : Cause) : RegWord :=
  statusPack (statusReserved w) true c.code true false

end Sys2Proof.Machine
end

