-- ==== Sys2Proof/Machine/Operands.lean ====
section
/-! DEFINITION. The operand forms (R64) and the counts derived from them (R83): each operand is its field's bits read as
an unsigned integer, and the engine has no other operand form. -/

namespace Sys2Proof.Machine

/-- The value of a count operand `n` or `bs` (R64): the field read as an unsigned integer. -/
def countValue (n : Count) : Nat := n.toNat

/-- The half length `h = n div 2` (R83), floor division. -/
def half (n : Nat) : Nat := n / 2

/-- A sample value as it is stored (R21): the 8-bit cell holding `v`, for `v` at most 255. -/
def toSample (v : Nat) : Sample := BitVec.ofNat 8 v

end Sys2Proof.Machine
end

