-- ==== Sys2Proof/Machine/Ops.lean ====
section
/-! DEFINITION. The named operations over the state: the result memory (R22, R42, R122), the two ends of a command,
`Commit` (R100) and the error entry (R152), the register reads (R123) and the reset of the engine (R180). -/

namespace Sys2Proof.Machine

/-- The content of one cell: a Sample, or nothing where it is `unwritten` (R22). -/
def Memory.read : Memory → Nat → Option Sample
  | [], _ => none
  | (b, v) :: rest, a => if a = b then some v else Memory.read rest a

/-- A sequence laid out at ascending addresses from `a` on (R42). -/
def Memory.layFrom (a : Nat) : List Sample → Memory
  | [] => []
  | v :: vs => (a, v) :: Memory.layFrom (a + 1) vs

/-- The memory that holds the sequence at addresses 0, 1, 2, ... and is unwritten beyond it (R42, R100). -/
def Memory.ofSamples (xs : List Sample) : Memory := Memory.layFrom 0 xs

/-- Addresses strictly rising from `a` on and below `CAP`. -/
def Memory.risingFrom (a : Nat) : Memory → Bool
  | [] => true
  | (b, _) :: rest => decide (a ≤ b) && decide (b < Config.cap) && Memory.risingFrom (b + 1) rest

/-- The canonical form: addresses strictly rising and inside the memory (R22). An unlisted cell reads as no value, so
no entry can equal what an unlisted cell reads as. -/
def Memory.wf (m : Memory) : Bool := Memory.risingFrom 0 m

/-- `Commit(s)` (R100): the whole result is laid out, every other cell becomes unwritten, LEN is its length, STATUS says
success. One indivisible update (R48). -/
def commit (xs : List Sample) (s : State) : State :=
  { s with
    img := Memory.ofSamples xs
    len := BitVec.ofNat 18 xs.length
    status := statusCommit s.status }

/-- Taking the Domain Error with cause `c` (R152): every cell becomes unwritten, LEN 0, STATUS records the failure.
Nothing is saved and control goes nowhere; the engine is ready for the next move (R155). -/
def raiseDomainError (c : Cause) (s : State) : State :=
  { s with
    img := []
    len := 0
    status := statusError s.status c }

/-- The end of a command (R69): exactly one of `Commit` and the error entry. -/
def finish (r : Except Cause (List Sample)) (s : State) : State :=
  match r with
  | .ok xs => commit xs s
  | .error c => raiseDomainError c s

/-- `ReadImg(a)` (R122): the Sample where `a < LEN` and the cell holds one, else no value. -/
def readImg (a : ImgAddr) (s : State) : Answer :=
  if a < s.len then
    match Memory.read s.img a.toNat with
    | some v => .sample v
    | none => .fault (.unwrittenCell a)
  else .fault (.unwrittenCell a)

/-- `ReadStatus()` (R123): the STATUS word. -/
def readStatus (s : State) : Answer := .status s.status

/-- `ReadLen()` (R123): LEN zero-extended to 32 bits (R23). -/
def readLen (s : State) : Answer := .len (s.len.setWidth 32)

/-- `Reset()` (R180): the engine's three pieces of state take their reset values (R32); what the host has been told and
what it will still do are the host's. -/
def resetEngine (s : State) : State :=
  { s with
    img := State.reset.img
    len := State.reset.len
    status := State.reset.status }

/-- The host is told the answer of a read; the read changes nothing in the engine (R45). -/
def tell (r : Answer) (s : State) : State := { s with answers := s.answers ++ [r] }

end Sys2Proof.Machine
end

