-- ==== Sys2Proof/Machine/Numerics.lean ====
section
/-! DEFINITION. The arithmetic of the generators (40_quantization.md): exact fractions (R80), rounding of a ratio (R81,
R82), the quantization of an amplitude (R84), and the sine (R85). The sine of a phase is compared on integers, without
any approximation, with the amplitudes at which its sample switches (log entry 3); the statement
`SineSampleIsExactlyRounded` says that the sample is the exactly rounded one for every count. -/

namespace Sys2Proof.Machine

/-- A non-negative rational number as numerator over denominator, not reduced (R80: no intermediate rounding). -/
structure Frac where
  num : Nat
  den : Nat
deriving DecidableEq, Repr

/-- A tie between `f` and `f + 1` (R81), under either tie rule. -/
def breakTie : TieRule → Nat → Nat
  | .halfToEven, f => f + f % 2
  | .halfAway, f => f + 1

/-- Rounding of `p / q` to the nearest integer (R82), `q > 0`; under `halfToEven` this is `rne(p / q)`. -/
def roundRatio (t : TieRule) (p q : Nat) : Nat :=
  if 2 * (p % q) < q then p / q
  else if q < 2 * (p % q) then p / q + 1
  else breakTie t (p / q)

/-- An amplitude in [-1, 1]: a sign and a magnitude (R84). -/
structure Amplitude where
  negative : Bool
  mag : Frac
deriving DecidableEq, Repr

/-- `u = (s + 1) / 2` (R84). -/
def normalise (s : Amplitude) : Frac :=
  if s.negative then ⟨s.mag.den - s.mag.num, 2 * s.mag.den⟩ else ⟨s.mag.den + s.mag.num, 2 * s.mag.den⟩

/-- `Q(s)`: normalise, scale to [0, 255], round once (R84). -/
def quantize (t : TieRule) (s : Amplitude) : Nat :=
  roundRatio t (Config.qmax * (normalise s).num) (normalise s).den

/-- `255²·cos ψ` for the angle `ψ = 2·arcsin(2j/255)` of level `j` (log entry 3). -/
def levelCosine (j : Nat) : Int := 255 * 255 - 8 * j * j

/-- `255²·sin ψ / √(levelGap j)` for the angle `ψ` of level `j` (log entry 3). -/
def levelSine (j : Nat) : Int := 4 * j

/-- `255² - (2j)²`, which makes `cosine² + levelGap j · sine²` a power of 255 in every `Winding` (log entry 3). -/
def levelGap (j : Nat) : Int := 255 * 255 - 4 * j * j

/-- Where `t` turns by the angle `ψ` of a level end: the half turns completed, and `255^(2t)·cos(tψ)` and
`255^(2t)·sin(tψ)` over `√(levelGap j)`, both of which are integers (log entry 3). -/
structure Winding where
  halfTurns : Nat
  cosine : Int
  sine : Int
deriving DecidableEq, Repr

/-- A coordinate seen from the direction the completed half turns point in. -/
def facing (halfTurns : Nat) (v : Int) : Int := if halfTurns % 2 = 0 then v else -v

/-- No turn at all. -/
def windNone : Winding := ⟨0, 1, 0⟩

/-- Twice as many turns: a rest of a quarter turn or more completes another half turn. -/
def windTwice (j : Nat) (x : Winding) : Winding :=
  { halfTurns := 2 * x.halfTurns + if facing x.halfTurns x.cosine ≤ 0 then 1 else 0
    cosine := x.cosine * x.cosine - levelGap j * (x.sine * x.sine)
    sine := 2 * (x.cosine * x.sine) }

/-- One turn more: the turn completes another half turn where the sine changes its sign. -/
def windOnce (j : Nat) (x : Winding) : Winding :=
  let sine := levelCosine j * x.sine + levelSine j * x.cosine
  { halfTurns := x.halfTurns + if facing x.halfTurns sine ≤ 0 then 1 else 0
    cosine := levelCosine j * x.cosine - levelGap j * (levelSine j * x.sine)
    sine := sine }

/-- `n` turns by the angle of level `j`, by the binary digits of `n`; `fuel` is at least `n`. -/
def wind (j : Nat) : Nat → Nat → Winding
  | 0, _ => windNone
  | fuel + 1, n =>
    if n = 0 then windNone
    else if n % 2 = 0 then windTwice j (wind j fuel (n / 2))
    else windOnce j (windTwice j (wind j fuel (n / 2)))

/-- Whether `2j/255 < sin((π/2)(m/n))`, for `0 < j ≤ 127` and `m ≤ n`, decided on integers: `n` turns by
`2·arcsin(2j/255)` stay below `m` half turns (log entry 3). -/
def sineExceeds (j m n : Nat) : Bool := decide ((wind j n n).halfTurns < m)

/-- The largest level from `j` down that the sine exceeds, 0 where it exceeds none. -/
def highestLevel (m n : Nat) : Nat → Nat
  | 0 => 0
  | j + 1 => if sineExceeds (j + 1) m n then j + 1 else highestLevel m n j

/-- `sin((π/2)(m/n))` for `m ≤ n`, as a fraction that stands for it in every rounding: 0 at 0, else the middle of the two
neighbouring levels `2j/255`, the amplitudes at which `Q` switches (R84), between which the sine lies (log entry 3). -/
def quarterSine (m n : Nat) : Frac := if m = 0 then ⟨0, 255⟩ else ⟨2 * highestLevel m n 127 + 1, 255⟩

/-- `sin(2πk/n)`, `k < n` (R85): with `4k = q·n + r` the phase lies in quadrant `q`, at `r/n` of its width; the sine
rises with `r` in quadrants 0 and 2, falls in 1 and 3, and is negative in 2 and 3. -/
def sineAmplitude (n k : Nat) : Amplitude :=
  let q := 4 * k / n
  let r := 4 * k % n
  if q = 0 then ⟨false, quarterSine r n⟩
  else if q = 1 then ⟨false, quarterSine (n - r) n⟩
  else if q = 2 then ⟨true, quarterSine r n⟩
  else ⟨true, quarterSine (n - r) n⟩

end Sys2Proof.Machine
end

