-- ==== Sys2Proof/Machine/Waveforms.lean ====
section
/-! DEFINITION. The pure functions `gen(s, n)` of 41_generators.md (R34, R101 to R104) and the ROM Image assembly of
42_rom_assembly.md (R35, R120): each gives a sequence of Samples or the cause of a Domain Error, and reads nothing but
its counts (R100). Every precondition is tested before anything is computed (R153). The tie rule is an argument (I2);
the engine's is `Config.tieRule`. -/

namespace Sys2Proof.Machine

/-- The sequence `[e(k) | k in [0, n)]` of stored samples. -/
def tabulate (n : Nat) (e : Nat → Nat) : List Sample := (List.range n).map fun k => toSample (e k)

/-- `gen(0, n)` (R101): for each index, the quantized sine of the phase `2π·k/n`. -/
def sineBlock (t : TieRule) (n : Nat) : Except Cause (List Sample) :=
  .ok (tabulate n fun k => quantize t (sineAmplitude n k))

/-- `gen(1, n)` (R102): the first `n div 2` samples high, the rest low. -/
def squareBlock (n : Nat) : Except Cause (List Sample) :=
  .ok (tabulate n fun k => if k < half n then Config.qmax else 0)

/-- `gen(2, n)` (R103): the linear ramp over [0, n - 1]. -/
def sawBlock (t : TieRule) (n : Nat) : Except Cause (List Sample) :=
  if n < 2 then .error .countTooSmall
  else .ok (tabulate n fun k => roundRatio t (k * Config.qmax) (n - 1))

/-- The value of the triangle at index `k` (R104): the rising half below `h`, the falling half from `h` on. -/
def triValue (t : TieRule) (n k : Nat) : Nat :=
  if k < half n then roundRatio t (k * Config.qmax) (half n - 1)
  else roundRatio t ((n - 1 - k) * Config.qmax) (half n - 1)

/-- `gen(3, n)` (R104): the two preconditions in their order, then rise and fall. -/
def triBlock (t : TieRule) (n : Nat) : Except Cause (List Sample) :=
  if half n < 2 then .error .countTooSmall
  else if n % 2 = 1 then .error .countOdd
  else .ok (tabulate n (triValue t n))

/-- `gen(s, n)` (R34). -/
def gen (t : TieRule) : Shape → Nat → Except Cause (List Sample)
  | .sine, n => sineBlock t n
  | .square, n => squareBlock n
  | .sawtooth, n => sawBlock t n
  | .triangle, n => triBlock t n

/-- The blocks of a list of shapes, one after the other; the first error in that order wins (R120, R154). -/
def genBlocks (t : TieRule) (n : Nat) : List Shape → Except Cause (List Sample)
  | [] => .ok []
  | s :: rest =>
    match gen t s n with
    | .error c => .error c
    | .ok b =>
      match genBlocks t n rest with
      | .error c => .error c
      | .ok bs => .ok (b ++ bs)

/-- `build_rom(nb, bs)` (R120): the block count is tested first, then the four blocks in shape order. -/
def romImage (t : TieRule) (nb : BlockCount) (bs : Nat) : Except Cause (List Sample) :=
  if nb ≠ Config.numBlocks then .error .blockCount
  else genBlocks t bs Config.shapes

end Sys2Proof.Machine
end

