-- ==== Sys2Proof/Machine/Generators.lean ====
section
/-! DEFINITION. The meanings of the four generator commands (41_generators.md R101 to R104). -/

namespace Sys2Proof.Machine

/-- `GEN_SINE n` (R101): no precondition; every count succeeds. -/
def execGenSine (n : Count) (s : State) : Host.Outcome State Fault Refusal :=
  .next (finish (sineBlock Config.tieRule (countValue n)) s)

/-- `GEN_SQUARE n` (R102): no precondition; every count succeeds. -/
def execGenSquare (n : Count) (s : State) : Host.Outcome State Fault Refusal :=
  .next (finish (squareBlock (countValue n)) s)

/-- `GEN_SAW n` (R103): a count below 2 raises COUNT_TOO_SMALL. -/
def execGenSaw (n : Count) (s : State) : Host.Outcome State Fault Refusal :=
  .next (finish (sawBlock Config.tieRule (countValue n)) s)

/-- `GEN_TRI n` (R104): a count below 4 raises COUNT_TOO_SMALL, an odd count from 5 on COUNT_ODD. -/
def execGenTri (n : Count) (s : State) : Host.Outcome State Fault Refusal :=
  .next (finish (triBlock Config.tieRule (countValue n)) s)

end Sys2Proof.Machine
end

