-- ==== Sys2Proof/Machine/RomAssembly.lean ====
section
/-! DEFINITION. The meaning of `BUILD_ROM` (42_rom_assembly.md R120). -/

namespace Sys2Proof.Machine

/-- `BUILD_ROM nb, bs` (R120): the four blocks committed together, or the first failing precondition's cause. -/
def execBuildRom (nb : BlockCount) (bs : Count) (s : State) : Host.Outcome State Fault Refusal :=
  .next (finish (romImage Config.tieRule nb (countValue bs)) s)

end Sys2Proof.Machine
end

