-- ==== Sys2Proof/Machine/Dispatch.lean ====
section
/-! DEFINITION. `exec`: one arm per command, each a direct call of its meaning (R69). -/

namespace Sys2Proof.Machine

def exec (i : Instr) (s : State) : Host.Outcome State Fault Refusal :=
  match i with
  | .genSine n => Sys2Proof.Machine.execGenSine n s
  | .genSquare n => Sys2Proof.Machine.execGenSquare n s
  | .genSaw n => Sys2Proof.Machine.execGenSaw n s
  | .genTri n => Sys2Proof.Machine.execGenTri n s
  | .buildRom nb bs => Sys2Proof.Machine.execBuildRom nb bs s

end Sys2Proof.Machine
end

