-- ==== Sys2Proof/Machine/HostMoves.lean ====
section
/-! DEFINITION. The five host moves (43_sequencing_and_system.md R142), each one atomic step (R48), and the register
space through which STATUS and LEN are read (R30). -/

namespace Sys2Proof.Machine

/-- `Issue(w)` (R25, R69): the word is decoded and executed as one step; an illegal word raises the Domain Error with
cause ILLEGAL_COMMAND (R65). -/
def issueWord (w : CmdWord) (s : State) : Host.Outcome State Fault Refusal :=
  match decode w with
  | .ok i => exec i s
  | .error _ => .next (raiseDomainError .illegalCommand s)

/-- One host move (R142). A move is never refused and always completes (R48). -/
def perform (m : Move) (s : State) : Host.Outcome State Fault Refusal :=
  match m with
  | .reset => .next (resetEngine s)
  | .issue w => issueWord w s
  | .readStatus => .next (tell (readStatus s) s)
  | .readLen => .next (tell (readLen s) s)
  | .readImg a => .next (tell (readImg a s) s)

/-- The host makes its next move (R140: in the order of issue). With no move to make the engine is idle and nothing
changes (R142, R163). -/
def nextMove (s : State) : Host.Outcome State Fault Refusal :=
  match s.moves with
  | [] => .next s
  | m :: rest => perform m { s with moves := rest }

/-- The move a host makes by reading a register of the register space (R30): STATUS is number 1 and LEN number 2; the
command port, number 0, is write-only (R25), and no other register exists. -/
def registerRead (number : Nat) : Option Move :=
  if number = 1 then some .readStatus
  else if number = 2 then some .readLen
  else none

/-- The move a host makes by writing a register of the register space (R30): only the command port, number 0, can be
written. -/
def registerWrite (number : Nat) (w : CmdWord) : Option Move :=
  if number = 0 then some (.issue w) else none

/-- The move that hands the engine the command whose bits are `w`, the bits above `nbits` zero (R25, R60). -/
def moveOfTableWord (nbits w : Nat) : Move := .issue (BitVec.ofNat 32 (w % 2 ^ nbits))

end Sys2Proof.Machine
end

