-- ==== Sys2Proof/Machine/Step.lean ====
section
/-! DEFINITION. One step: the host's next move (R142). The engine fetches nothing (R27, R51); the next command is the
one the host hands over, so a fetched word is the host's next move (log entry 4). -/

namespace Sys2Proof.Machine

/-- One atomic step of the machine (R48). -/
def step (s : State) : Host.Outcome State Fault Refusal := Sys2Proof.Machine.nextMove s

/-- The state whose next move hands the engine the word `w`; nothing else changes. -/
def State.withFetchWord (s : State) (nbits w : Nat) : State :=
  { s with moves := Sys2Proof.Machine.moveOfTableWord nbits w :: s.moves }

end Sys2Proof.Machine
end

