-- ==== Sys2Proof/Machine/Assembler.lean ====
section
/-! DEFINITION. The assembler's text (R68): the mnemonic spelling and D00's call spelling of a command, read from one
line. The expansion of a written command, with its defaults and refusals, is `assemble`. Log entry 6. -/

namespace Sys2Proof.Machine

/-- The tokens of a line (R68). -/
inductive Token where
  | name (cs : List Char)
  | num (n : Nat)
  | opening
  | closing
  | comma
  | equals
deriving DecidableEq, Repr

/-- A character of a name or a number. -/
def isNameChar (c : Char) : Bool := c.isAlphanum || c == '_'

/-- The value of a decimal digit. -/
def decimalDigit (c : Char) : Option Nat := if c.isDigit then some (c.toNat - '0'.toNat) else none

/-- The value of a hexadecimal digit, in either case. -/
def hexDigit (c : Char) : Option Nat :=
  if c.isDigit then some (c.toNat - '0'.toNat)
  else if 'a' ≤ c ∧ c ≤ 'f' then some (c.toNat - 'a'.toNat + 10)
  else if 'A' ≤ c ∧ c ≤ 'F' then some (c.toNat - 'A'.toNat + 10)
  else none

/-- The number a list of digits spells in a base, going on from `acc`. -/
def readDigits (digit : Char → Option Nat) (base : Nat) : List Char → Nat → Option Nat
  | [], acc => some acc
  | c :: cs, acc =>
    match digit c with
    | some d => readDigits digit base cs (base * acc + d)
    | none => none

/-- A run of name characters: a decimal or `0x` hexadecimal number, or a name (R68). -/
def runToken : List Char → Option Token
  | [] => none
  | '0' :: 'x' :: d :: ds => (readDigits hexDigit 16 (d :: ds) 0).map .num
  | c :: cs => if c.isDigit then (readDigits decimalDigit 10 (c :: cs) 0).map .num else some (.name (c :: cs))

/-- The token of a punctuation mark. -/
def markToken (c : Char) : Option Token :=
  if c = '(' then some .opening
  else if c = ')' then some .closing
  else if c = ',' then some .comma
  else if c = '=' then some .equals
  else none

/-- The pending run, kept last character first, in front of the tokens after it. -/
def flushRun (pending : List Char) (ts : List Token) : Option (List Token) :=
  if pending.isEmpty then some ts else (runToken pending.reverse).map (· :: ts)

/-- The tokens of a line; two hyphens begin a comment that runs to its end (R68). -/
def tokens : List Char → List Char → Option (List Token)
  | [], pending => flushRun pending []
  | '-' :: '-' :: _, pending => flushRun pending []
  | c :: cs, pending =>
    if isNameChar c then tokens cs (c :: pending)
    else if c = ' ' ∨ c = '\t' then (tokens cs []).bind (flushRun pending)
    else
      match markToken c with
      | some t => (tokens cs []).bind fun ts => flushRun pending (t :: ts)
      | none => none

/-- The shape whose generator a mnemonic names (R63). -/
def shapeOfMnemonic (f : List Char) : Option Shape :=
  if f = "GEN_SINE".toList then some .sine
  else if f = "GEN_SQUARE".toList then some .square
  else if f = "GEN_SAW".toList then some .sawtooth
  else if f = "GEN_TRI".toList then some .triangle
  else none

/-- The shape whose generator a D00 operation names (R63). -/
def shapeOfOperation (f : List Char) : Option Shape :=
  if f = "generate_sine".toList then some .sine
  else if f = "generate_square".toList then some .square
  else if f = "generate_sawtooth".toList then some .sawtooth
  else if f = "generate_triangle".toList then some .triangle
  else none

/-- The operands after `BUILD_ROM` (R68): none, `nb`, or `nb, bs`. -/
def buildOperands : List Token → Option Source
  | [] => some (.build none none)
  | [.num nb] => some (.build (some nb) none)
  | [.num nb, .comma, .num bs] => some (.build (some nb) (some bs))
  | _ => none

/-- The last argument of a call by the keyword `block_size`, and the closing mark. -/
def lastByKeyword : List Token → Option Nat
  | [.name f, .equals, .num bs, .closing] => if f = "block_size".toList then some bs else none
  | _ => none

/-- The last argument of a call by position or by keyword, and the closing mark. -/
def lastArgument : List Token → Option Nat
  | [.num bs, .closing] => some bs
  | ts => lastByKeyword ts

/-- What follows the first argument of a call: the end of the call, or the second argument. -/
def afterFirst (nb : Nat) (last : List Token → Option Nat) : List Token → Option Source
  | [.closing] => some (.build (some nb) none)
  | .comma :: ts => (last ts).map fun bs => .build (some nb) (some bs)
  | _ => none

/-- The arguments of `build_rom(num_blocks=4, block_size=256)` (R68), either of which may be omitted; an argument by
position never follows one by keyword. -/
def callArguments : List Token → Option Source
  | [.opening, .closing] => some (.build none none)
  | .opening :: .num nb :: ts => afterFirst nb lastArgument ts
  | .opening :: .name f :: .equals :: .num v :: ts =>
    if f = "num_blocks".toList then afterFirst v lastByKeyword ts
    else if f = "block_size".toList ∧ ts = [.closing] then some (.build none (some v))
    else none
  | _ => none

/-- The command a line of tokens spells (R68). -/
def parse : List Token → Option Source
  | .name f :: ts =>
    match shapeOfMnemonic f, shapeOfOperation f with
    | some s, _ => match ts with
      | [.num n] => some (.gen s n)
      | _ => none
    | none, some s => match ts with
      | [.opening, .num n, .closing] => some (.gen s n)
      | _ => none
    | none, none =>
      if f = "BUILD_ROM".toList then buildOperands ts
      else if f = "build_rom".toList then callArguments ts
      else none
  | _ => none

/-- The command word of a line of assembly (R68), or nothing where the line spells no command or an operand does not
fit its field. -/
def assembleLine (line : String) : Option CmdWord :=
  (((tokens line.toList []).bind parse).bind assemble).map encode

end Sys2Proof.Machine
end

