-- ==== Sys2Proof/Safety.lean ====
section
/-! DEFINITION. The terms claims are stated in: the rounding of the spec over the reals (R81), what a successful and a
failed command leave (R164), the invariant of the engine (R22, R23, R24), and when a run has gone wrong (R143). -/

namespace Sys2Proof

/-- `z = rne(x)` for a real `x ≥ 0`, in the four lines of R81, with `f` the floor of `x` and `r` its fractional part. -/
def IsRne (x : ℝ) (z : Nat) : Prop :=
  (Int.fract x < 1 / 2 → (z : ℤ) = ⌊x⌋) ∧
  (1 / 2 < Int.fract x → (z : ℤ) = ⌊x⌋ + 1) ∧
  (Int.fract x = 1 / 2 → Even ⌊x⌋ → (z : ℤ) = ⌊x⌋) ∧
  (Int.fract x = 1 / 2 → Odd ⌊x⌋ → (z : ℤ) = ⌊x⌋ + 1)

/-- `w[hi:lo]` as the spec writes it (00_scope.md section 5): the unsigned integer the bits form. -/
def wordBits (w : CmdWord) (hi lo : Nat) : Nat := w.toNat / 2 ^ lo % 2 ^ (hi - lo + 1)

namespace Machine

/-- What a command computes, from its word alone (R100): a sequence to commit or the cause of a Domain Error. -/
def commandResult : Instr → Except Cause (List Sample)
  | .genSine n => gen Config.tieRule .sine (countValue n)
  | .genSquare n => gen Config.tieRule .square (countValue n)
  | .genSaw n => gen Config.tieRule .sawtooth (countValue n)
  | .genTri n => gen Config.tieRule .triangle (countValue n)
  | .buildRom nb bs => romImage Config.tieRule nb (countValue bs)

/-- What a word computes when it is issued (R69): an illegal word's result is the error ILLEGAL_COMMAND. -/
def wordResult (w : CmdWord) : Except Cause (List Sample) :=
  match decode w with
  | .ok i => commandResult i
  | .error _ => .error .illegalCommand

/-- The Sample `gen(s, n)[k]` (R34); of no meaning where the generator fails or `k ≥ n`. -/
def blockSample (sh : Shape) (n k : Nat) : Sample :=
  match gen Config.tieRule sh n with
  | .ok xs => xs.getD k 0
  | .error _ => 0

/-- The host's side of a run is untouched: no command makes a move or answers one (R142). -/
def SameHost (s t : State) : Prop := t.moves = s.moves ∧ t.answers = s.answers

/-- The engine's three pieces of state are untouched (R45). -/
def SameEngine (s t : State) : Prop := t.img = s.img ∧ t.len = s.len ∧ t.status = s.status

/-- `t` is what a success with a result of length `m` leaves of `s`, the Sample at index `k` being `sample k` (R100,
R164): the result at [0, m), every other cell unwritten, LEN = m, VALID 1, ERR 0, CAUSE 0, ESEEN and the reserved bits
unchanged, the host's side untouched. -/
def Committed (m : Nat) (sample : Nat → Sample) (s t : State) : Prop :=
  (∀ a, Memory.read t.img a = if a < m then some (sample a) else none) ∧
  t.len.toNat = m ∧
  statusValid t.status = true ∧ statusErr t.status = false ∧ statusCause t.status = 0 ∧
  statusEseen t.status = statusEseen s.status ∧ statusReserved t.status = statusReserved s.status ∧
  SameHost s t

/-- `t` is what a Domain Error with cause `c` leaves of `s` (R152, R164): every cell unwritten, LEN 0, VALID 0, ERR 1,
CAUSE `c`, ESEEN 1, the reserved bits unchanged, the host's side untouched. -/
def Failed (c : Cause) (s t : State) : Prop :=
  (∀ a, Memory.read t.img a = none) ∧
  t.len = 0 ∧
  statusValid t.status = false ∧ statusErr t.status = true ∧ statusCause t.status = c.code ∧
  statusEseen t.status = true ∧ statusReserved t.status = statusReserved s.status ∧
  SameHost s t

/-- The invariant of the engine: the memory is in canonical form, its written cells are exactly those below LEN (R22),
LEN is in range (R23), and STATUS is one of the words R24 allows. -/
structure EngineInv (s : State) : Prop where
  canonical : Memory.wf s.img = true
  written : ∀ a, (Memory.read s.img a).isSome = true ↔ a < s.len.toNat
  lenRange : s.len.toNat ≤ 4 * Config.countMax
  reserved : statusReserved s.status = 0
  causeRange : (statusCause s.status).toNat ≤ 4
  validNotErr : statusValid s.status = true → statusErr s.status = false
  errShown : statusErr s.status = true →
    statusEseen s.status = true ∧ statusCause s.status ≠ 0 ∧ s.len = 0
  noErrNoCause : statusErr s.status = false → statusCause s.status = 0
  idleIsReset : statusValid s.status = false → statusErr s.status = false →
    statusEseen s.status = false ∧ s.len = 0

/-- A move that only reads (R45). -/
def Move.isRead : Move → Bool
  | .reset => false
  | .issue _ => false
  | .readStatus => true
  | .readLen => true
  | .readImg _ => true

/-- An answer that carries no value. -/
def Answer.isFault : Answer → Bool
  | .status _ => false
  | .len _ => false
  | .sample _ => false
  | .fault _ => true

/-- A run has gone wrong when one of its reads faulted (R143). -/
def goneWrong (s : State) : Bool := s.answers.any Answer.isFault

end Machine

end Sys2Proof
end

