-- ==== Sys2Proof/Certificates/Slice0/Obligations.lean ====
section
/-! DEFINITION. The statements for the provers, each a proposition about the model, made from the numbered rules of
spec/. -/

open Sys2Proof Sys2Proof.Machine

/-! ### Encoding -/

/-- Decoding an encoded command gives it back, every operand at every value (R69, `Decode(Enc(c)) = c`). -/
def Obligations.DecodeInvertsEncode : Prop :=
  ∀ i : Instr, decode (encode i) = .ok i

/-- A legal word is the encoding of the command it decodes to: no word has two spellings and no bit is dropped. -/
def Obligations.EncodeInvertsDecode : Prop :=
  ∀ (w : CmdWord) (i : Instr), decode w = .ok i → encode i = w

/-- R69: `Decode` by its pseudocode on the numbered bits, `Exec` on each outcome, and the encoder's two sums, which the
spec marks as its own derivation from R61 and R62. -/
def Obligations.DecodeAndExecFollowPseudocode : Prop :=
  (∀ w : CmdWord,
    (wordBits w 31 31 = 0 → wordBits w 28 16 ≠ 0 → ∃ e, decode w = .error e) ∧
    (wordBits w 31 31 = 0 → wordBits w 28 16 = 0 →
      decode w = .ok (Instr.ofShape (Shape.ofCode (BitVec.ofNat 2 (wordBits w 30 29))) (BitVec.ofNat 16 (wordBits w 15 0)))) ∧
    (wordBits w 31 29 = 4 → wordBits w 28 24 ≠ 0 → ∃ e, decode w = .error e) ∧
    (wordBits w 31 29 = 4 → wordBits w 28 24 = 0 →
      decode w = .ok (.buildRom (BitVec.ofNat 8 (wordBits w 23 16)) (BitVec.ofNat 16 (wordBits w 15 0)))) ∧
    (5 ≤ wordBits w 31 29 → ∃ e, decode w = .error e)) ∧
  (∀ (w : CmdWord) (s : State),
    (∀ i, decode w = .ok i → issueWord w s = exec i s) ∧
    (∀ e, decode w = .error e → issueWord w s = .next (raiseDomainError .illegalCommand s)) ∧
    ((∃ xs, issueWord w s = .next (commit xs s)) ∨ (∃ c, issueWord w s = .next (raiseDomainError c s)))) ∧
  (∀ (sh : Shape) (n : Count),
    (encode (Instr.ofShape sh n)).toNat = sh.code.toNat * 2 ^ 29 + n.toNat ∧
    decode (encode (Instr.ofShape sh n)) = .ok (Instr.ofShape sh n)) ∧
  (∀ (nb : BlockCount) (bs : Count),
    (encode (.buildRom nb bs)).toNat = 2 ^ 31 + nb.toNat * 2 ^ 16 + bs.toNat ∧
    decode (encode (.buildRom nb bs)) = .ok (.buildRom nb bs))

/-- R63: a word spells the command of a row exactly when it matches the row under its mask; the operands are its low
bits; a word that matches no row is illegal; the rows are disjoint; the low two bits of a generator's `op` are the shape
code of the block it makes. -/
def Obligations.OpcodeMapSelectsCommand : Prop :=
  (∀ w : CmdWord,
    (w &&& 0xFFFF0000 = 0x00000000 ↔ decode w = .ok (.genSine (w.setWidth 16))) ∧
    (w &&& 0xFFFF0000 = 0x20000000 ↔ decode w = .ok (.genSquare (w.setWidth 16))) ∧
    (w &&& 0xFFFF0000 = 0x40000000 ↔ decode w = .ok (.genSaw (w.setWidth 16))) ∧
    (w &&& 0xFFFF0000 = 0x60000000 ↔ decode w = .ok (.genTri (w.setWidth 16))) ∧
    (w &&& 0xFF000000 = 0x80000000 ↔ decode w = .ok (.buildRom ((w >>> 16).setWidth 8) (w.setWidth 16))) ∧
    ((∃ e, decode w = .error e) ↔ ∀ i : Instr, w &&& opcodeMask i ≠ opcodeMatch i)) ∧
  (∀ (w : CmdWord) (i j : Instr), w &&& opcodeMask i = opcodeMatch i → w &&& opcodeMask j = opcodeMatch j →
    opcodeMatch i = opcodeMatch j) ∧
  (∀ (sh : Shape) (n : Count), wordBits (encode (Instr.ofShape sh n)) 30 29 = sh.code.toNat ∧
    wordBits (encode (Instr.ofShape sh n)) 31 29 = sh.code.toNat)

/-- R65: a word is illegal exactly when it matches no row of the opcode map, which happens in exactly three ways, and
issuing it raises the Domain Error with cause 1. -/
def Obligations.IllegalWordsRaiseCauseOne : Prop :=
  (∀ w : CmdWord, (∃ e, decode w = .error e) ↔
    (5 ≤ wordBits w 31 29 ∨ (wordBits w 31 31 = 0 ∧ wordBits w 28 16 ≠ 0) ∨
      (wordBits w 31 29 = 4 ∧ wordBits w 28 24 ≠ 0))) ∧
  (∀ w : CmdWord, (∃ e, decode w = .error e) ↔ ∀ i : Instr, w &&& opcodeMask i ≠ opcodeMatch i) ∧
  (∀ (w : CmdWord) (s : State), (∃ e, decode w = .error e) →
    ∃ t, issueWord w s = .next t ∧ Failed .illegalCommand s t ∧ statusCause t.status = 1 ∧
      statusErr t.status = true ∧ statusEseen t.status = true)

/-- Exactly 17,039,360 of the 2^32 words are legal: the count of R66, the spec's own derivation from R61 and R62. -/
def Obligations.LegalWordCount : Prop :=
  Nat.card { w : CmdWord // ∃ i, decode w = .ok i } = 17039360

/-- The words of the worked encodings of R68 and of the decoding table of 95_test_vectors.md section 2.7 decode, or are
refused under the name, as those tables say. -/
def Obligations.WorkedWordsDecode : Prop :=
  decode 0x00000100#32 = .ok (.genSine 256) ∧ decode 0x20000100#32 = .ok (.genSquare 256) ∧
  decode 0x40000100#32 = .ok (.genSaw 256) ∧ decode 0x60000100#32 = .ok (.genTri 256) ∧
  decode 0x80040100#32 = .ok (.buildRom 4 256) ∧ decode 0x80030100#32 = .ok (.buildRom 3 256) ∧
  decode 0x4000FFFF#32 = .ok (.genSaw 65535) ∧ decode 0x2000FFFF#32 = .ok (.genSquare 65535) ∧
  decode 0x80FF0100#32 = .ok (.buildRom 255 256) ∧
  decode 0xA0000000#32 = .error (.reservedOp 5) ∧ decode 0xC0040100#32 = .error (.reservedOp 6) ∧
  decode 0xFFFFFFFF#32 = .error (.reservedOp 7) ∧
  decode 0x00010004#32 = .error (.reservedBitsG 1) ∧ decode 0x1FFF0000#32 = .error (.reservedBitsG 0x1FFF) ∧
  decode 0x7FFFFFFF#32 = .error (.reservedBitsG 0x1FFF) ∧
  decode 0x81040100#32 = .error (.reservedBitsB 1) ∧ decode 0x9F040100#32 = .error (.reservedBitsB 0x1F)

/-- R68: a written command assembles exactly when its operands fit; the command and the word of each form of it, with its
operands written or left to their defaults; every command can be written. -/
def Obligations.AssemblerExpandsAndRefuses : Prop :=
  (∀ src : Source, (assemble src).isSome = true ↔ src.wellFormed = true) ∧
  (∀ (sh : Shape) (n : Nat), assemble (.gen sh n) = if n ≤ 65535 then some (Instr.ofShape sh (BitVec.ofNat 16 n)) else none) ∧
  (∀ nb bs : Nat, nb ≤ 255 → bs ≤ 65535 →
    assemble (.build (some nb) (some bs)) = some (.buildRom (BitVec.ofNat 8 nb) (BitVec.ofNat 16 bs)) ∧
    (encode (.buildRom (BitVec.ofNat 8 nb) (BitVec.ofNat 16 bs))).toNat = 0x80000000 + nb * 0x10000 + bs) ∧
  ((assemble (.build none none)).map encode = some 0x80040100) ∧
  (∀ nb : Nat, nb ≤ 255 → (assemble (.build (some nb) none)).map (fun i => (encode i).toNat) = some (0x80000100 + nb * 0x10000)) ∧
  (∀ bs : Nat, bs ≤ 65535 → (assemble (.build none (some bs))).map (fun i => (encode i).toNat) = some (0x80040000 + bs)) ∧
  (∀ nb : Nat, 255 < nb → ∀ bs, assemble (.build (some nb) bs) = none) ∧
  (∀ bs : Nat, 65535 < bs → ∀ nb, assemble (.build nb (some bs)) = none) ∧
  (∀ i : Instr, ∃ src : Source, assemble src = some i)

/-! ### The step -/

/-- When the host's next move issues a word that decodes to `i`, the step is `exec i` with that move taken off. -/
def Obligations.StepRunsDecodedCommand : Prop :=
  ∀ (s : State) (w : CmdWord) (i : Instr) (rest : List Move),
    s.moves = .issue w :: rest → decode w = .ok i → step s = exec i { s with moves := rest }

/-- A word placed by `withFetchWord` is what the very next step runs, and the step consumes it. -/
def Obligations.PlacedWordRunsNext : Prop :=
  ∀ (s : State) (i : Instr), step (s.withFetchWord 32 (encode i).toNat) = exec i s

/-- The table of R142: the five moves, what each does to the engine and what it returns; with no move nothing happens.
The lists of pending moves and of answers are the model's own way to hold a run (log entry 1); that a faulting read
goes on with a mark is log entry 2. -/
def Obligations.HostMovesFollowTheTable : Prop :=
  (∀ s : State, s.moves = [] → step s = .next s) ∧
  (∀ (s : State) (rest : List Move), s.moves = .reset :: rest →
    ∃ t, step s = .next t ∧ SameEngine State.reset t ∧ t.moves = rest ∧ t.answers = s.answers) ∧
  (∀ (s : State) (rest : List Move) (w : CmdWord), s.moves = .issue w :: rest →
    ∃ t, step s = .next t ∧ issueWord w { s with moves := rest } = .next t ∧ t.moves = rest ∧ t.answers = s.answers) ∧
  (∀ (s : State) (rest : List Move), s.moves = .readStatus :: rest →
    ∃ t, step s = .next t ∧ SameEngine s t ∧ t.moves = rest ∧ t.answers = s.answers ++ [.status s.status]) ∧
  (∀ (s : State) (rest : List Move), s.moves = .readLen :: rest →
    ∃ t, step s = .next t ∧ SameEngine s t ∧ t.moves = rest ∧
      ∃ v : RegWord, v.toNat = s.len.toNat ∧ t.answers = s.answers ++ [.len v]) ∧
  (∀ (s : State) (rest : List Move) (a : ImgAddr), s.moves = .readImg a :: rest →
    ∃ t, step s = .next t ∧ SameEngine s t ∧ t.moves = rest ∧
      (∀ v, a < s.len → Memory.read s.img a.toNat = some v → t.answers = s.answers ++ [.sample v]) ∧
      (s.len ≤ a → t.answers = s.answers ++ [.fault (.unwrittenCell a)]))

/-- R143: a finite run always ends: as many steps as there are pending moves use them all up, every answer given
before stands, and each read move answered once. -/
def Obligations.FiniteRunEnds : Prop :=
  ∀ s : State, ∃ t : State, Sys2Proof.core.run s.moves.length s = .next t ∧ t.moves = [] ∧
    ∃ new : List Answer, t.answers = s.answers ++ new ∧ new.length = s.moves.countP Move.isRead

/-- A read that faulted marks the run for good (R143): no later step takes the mark away. -/
def Obligations.GoneWrongIsPermanent : Prop :=
  ∀ s t : State, step s = .next t →
    (∃ new : List Answer, t.answers = s.answers ++ new ∧ new.length ≤ 1) ∧ (goneWrong s = true → goneWrong t = true)

/-! ### The invariant -/

/-- Every step keeps the invariant of the engine. -/
def Obligations.EveryStepKeepsInv : Prop :=
  ∀ s t : State, EngineInv s → step s = .next t → EngineInv t

/-- The reset state meets the invariant, and every field of the engine has the value R32 gives. -/
def Obligations.ResetMeetsInv : Prop :=
  EngineInv State.reset ∧ State.reset.img = [] ∧ (∀ a, Memory.read State.reset.img a = none) ∧ State.reset.len = 0 ∧
    State.reset.status = 0x00000000

/-- Every state a run reaches from reset, whatever moves the host makes, meets the invariant. -/
def Obligations.EveryRunFromResetKeepsInv : Prop :=
  ∀ (moves : List Move) (k : Nat) (t : State),
    Sys2Proof.core.run k { State.reset with moves := moves } = .next t → EngineInv t

/-- Two memories in canonical form that read alike are the same data. The list of cells and its canonical form are the
model's own choice for the result memory (log entry 7). -/
def Obligations.CanonicalMemoriesThatReadAlikeAreEqual : Prop :=
  ∀ m m' : Memory, Memory.wf m = true → Memory.wf m' = true → (∀ a, Memory.read m a = Memory.read m' a) → m = m'

/-- Only a reset clears the sticky error flag (R24, R155): any other move keeps it. -/
def Obligations.OnlyResetClearsEseen : Prop :=
  ∀ (s t : State) (m : Move) (rest : List Move), s.moves = m :: rest → step s = .next t →
    statusEseen s.status = true → statusEseen t.status = false → m = .reset

/-- R24: the STATUS fields every command leaves, from any state, the word after reset, that reads change nothing, that
the reserved bits read as 0 in every run from reset, and where each field stands in the word. -/
def Obligations.StatusWordAfterEveryMove : Prop :=
  (∀ (w : CmdWord) (s t : State), issueWord w s = .next t →
    statusValid t.status = !statusErr t.status ∧
    (statusCause t.status).toNat ≤ 4 ∧
    (statusErr t.status = true → statusEseen t.status = true ∧ statusCause t.status ≠ 0 ∧ t.len = 0 ∧
      ∃ c, wordResult w = .error c ∧ statusCause t.status = c.code) ∧
    (statusErr t.status = false → statusCause t.status = 0 ∧ statusEseen t.status = statusEseen s.status) ∧
    (statusValid t.status = true → ∃ xs : List Sample, wordResult w = .ok xs ∧ xs.length = t.len.toNat ∧
      ∀ a, Memory.read t.img a = xs[a]?) ∧
    statusReserved t.status = statusReserved s.status) ∧
  (∀ s t : State, perform .reset s = .next t → t.status = 0) ∧
  (∀ (s t : State) (m : Move), m.isRead = true → perform m s = .next t → t.status = s.status) ∧
  (∀ (moves : List Move) (k : Nat) (t : State),
    Sys2Proof.core.run k { State.reset with moves := moves } = .next t → statusReserved t.status = 0) ∧
  (∀ w : RegWord, w.toNat = (statusValid w).toNat + 2 * (statusErr w).toNat + 4 * (statusCause w).toNat +
    32 * (statusEseen w).toNat + 64 * (statusReserved w).toNat)

/-- R23: LEN after every command and after reset, as the host reads it, and that no read changes it. -/
def Obligations.LenAfterEveryCommand : Prop :=
  (∀ (i : Instr) (s t : State), exec i s = .next t → statusErr t.status = true → t.len = 0) ∧
  (∀ (n : Count) (s t : State), (exec (.genSine n) s = .next t ∨ exec (.genSquare n) s = .next t ∨
      exec (.genSaw n) s = .next t ∨ exec (.genTri n) s = .next t) →
    statusValid t.status = true → t.len.toNat = n.toNat) ∧
  (∀ (nb : BlockCount) (bs : Count) (s t : State), exec (.buildRom nb bs) s = .next t →
    statusValid t.status = true → t.len.toNat = 4 * bs.toNat) ∧
  (∀ (i : Instr) (s t : State), exec i s = .next t → t.len.toNat ≤ 262140) ∧
  (∀ s : State, ∃ v : RegWord, readLen s = .len v ∧ wordBits v 17 0 = s.len.toNat ∧ wordBits v 31 18 = 0) ∧
  (∀ s t : State, perform .reset s = .next t → t.len = 0) ∧
  (∀ (s t : State) (m : Move), m.isRead = true → perform m s = .next t → t.len = s.len)

/-! ### The two ends of a command -/

/-- R100: `Commit` lays out the whole result, of `n` or `4·bs` Samples, at the end of a successful command, and what a
word leaves does not depend on the state it was issued in. -/
def Obligations.CommitLeavesWholeResult : Prop :=
  (∀ (xs : List Sample) (s : State), xs.length ≤ 262140 → Committed xs.length (fun a => xs.getD a 0) s (commit xs s)) ∧
  (∀ (i : Instr) (s : State) (xs : List Sample), commandResult i = .ok xs →
    exec i s = .next (commit xs s) ∧ xs.length ≤ 262140) ∧
  (∀ (sh : Shape) (n : Count) (xs : List Sample), commandResult (Instr.ofShape sh n) = .ok xs → xs.length = n.toNat) ∧
  (∀ (nb : BlockCount) (bs : Count) (xs : List Sample), commandResult (.buildRom nb bs) = .ok xs →
    xs.length = 4 * bs.toNat) ∧
  (∀ (w : CmdWord) (s s' t t' : State), issueWord w s = .next t → issueWord w s' = .next t' →
    t.img = t'.img ∧ t.len = t'.len ∧ statusValid t.status = statusValid t'.status ∧
    statusErr t.status = statusErr t'.status ∧ statusCause t.status = statusCause t'.status)

/-- R152: the error entry, for every cause. -/
def Obligations.ErrorEntryEmptiesEngine : Prop :=
  ∀ (c : Cause) (s : State), Failed c s (raiseDomainError c s) ∧ 1 ≤ c.code.toNat ∧ c.code.toNat ≤ 4

/-- The table of R164, the spec's own derivation from R100 and R152: every word ends in a success that leaves its
whole result or in a Domain Error that leaves nothing. -/
def Obligations.EveryWordSucceedsOrFailsWhole : Prop :=
  ∀ (w : CmdWord) (s : State), ∃ t, issueWord w s = .next t ∧
    ((∃ xs : List Sample, wordResult w = .ok xs ∧ Committed xs.length (fun a => xs.getD a 0) s t) ∨
     (∃ c : Cause, wordResult w = .error c ∧ Failed c s t))

/-- Every command, from every state, leaves the host's side alone, keeps the reserved bits of STATUS, changes ESEEN
only by setting it, and leaves exactly the cells below LEN written. -/
def Obligations.EveryCommandFrame : Prop :=
  ∀ (i : Instr) (s : State), ∃ t, exec i s = .next t ∧ SameHost s t ∧
    statusReserved t.status = statusReserved s.status ∧
    (statusEseen t.status = statusEseen s.status ∨ (statusErr t.status = true ∧ statusEseen t.status = true)) ∧
    (∀ a, (Memory.read t.img a).isSome = true ↔ a < t.len.toNat) ∧ Memory.wf t.img = true

/-- R151: which commands raise which cause, that the sine and the square raise none, that no read sets one, and the
codes. -/
def Obligations.CausesAndWhoRaisesThem : Prop :=
  (∀ w : CmdWord, wordResult w = .error .illegalCommand ↔ ∃ e, decode w = .error e) ∧
  (∀ w : CmdWord, wordResult w = .error .blockCount ↔ ∃ nb bs, decode w = .ok (.buildRom nb bs) ∧ nb ≠ 4) ∧
  (∀ w : CmdWord, wordResult w = .error .countTooSmall ↔
    (∃ n, decode w = .ok (.genSaw n) ∧ n.toNat < 2) ∨ (∃ n, decode w = .ok (.genTri n) ∧ n.toNat < 4) ∨
    (∃ bs, decode w = .ok (.buildRom 4 bs) ∧ bs.toNat < 4)) ∧
  (∀ w : CmdWord, wordResult w = .error .countOdd ↔
    (∃ n, decode w = .ok (.genTri n) ∧ n.toNat % 2 = 1 ∧ 5 ≤ n.toNat) ∨
    (∃ bs, decode w = .ok (.buildRom 4 bs) ∧ bs.toNat % 2 = 1 ∧ 5 ≤ bs.toNat)) ∧
  (∀ (w : CmdWord) (s t : State) (c : Cause), issueWord w s = .next t → wordResult w = .error c →
    statusCause t.status = c.code) ∧
  (∀ (w : CmdWord) (s t : State) (xs : List Sample), issueWord w s = .next t → wordResult w = .ok xs →
    statusCause t.status = 0 ∧ statusErr t.status = false) ∧
  (∀ (n : Count) (s : State), ∃ t t', exec (.genSine n) s = .next t ∧ exec (.genSquare n) s = .next t' ∧
    statusErr t.status = false ∧ statusErr t'.status = false) ∧
  (∀ (s t : State) (a : ImgAddr), perform (.readImg a) s = .next t → t.status = s.status) ∧
  (∀ c : Cause, 1 ≤ c.code.toNat ∧ c.code.toNat ≤ 4) ∧
  Cause.code .illegalCommand = 1 ∧ Cause.code .blockCount = 2 ∧ Cause.code .countTooSmall = 3 ∧ Cause.code .countOdd = 4

/-- R154: the order of the tests: decode, block count, the generators in shape order, too small before odd;
the cause shows in CAUSE alone. -/
def Obligations.CausePriority : Prop :=
  (∀ (w : CmdWord) (s : State) (e : IllegalWord), decode w = .error e →
    ∃ t, issueWord w s = .next t ∧ statusCause t.status = 1) ∧
  (∀ (nb : BlockCount) (bs : Count) (s : State), nb ≠ 4 →
    ∃ t, exec (.buildRom nb bs) s = .next t ∧ statusCause t.status = 2) ∧
  (∀ (bs : Count) (s : State) (sh : Shape) (c : Cause), gen Config.tieRule sh bs.toNat = .error c →
    (∀ sh' : Shape, sh'.code < sh.code → ∃ xs, gen Config.tieRule sh' bs.toNat = .ok xs) →
    ∃ t, exec (.buildRom 4 bs) s = .next t ∧ statusCause t.status = c.code) ∧
  (∀ (n : Count) (s : State), n.toNat < 4 → ∃ t, exec (.genTri n) s = .next t ∧ statusCause t.status = 3) ∧
  (∀ s : State, ∃ t, exec (.buildRom 3 1) s = .next t ∧ statusCause t.status = 2) ∧
  (∀ s : State, ∃ t, exec (.buildRom 4 1) s = .next t ∧ statusCause t.status = 3) ∧
  (∀ s : State, ∃ t, exec (.buildRom 4 3) s = .next t ∧ statusCause t.status = 3) ∧
  (∀ s : State, ∃ t, exec (.genTri 3) s = .next t ∧ statusCause t.status = 3) ∧
  (∀ s : State, ∃ t, exec (.genTri 1) s = .next t ∧ statusCause t.status = 3) ∧
  (∀ (c c' : Cause) (s : State), (raiseDomainError c s).img = (raiseDomainError c' s).img ∧
    (raiseDomainError c s).len = (raiseDomainError c' s).len ∧
    statusValid (raiseDomainError c s).status = statusValid (raiseDomainError c' s).status ∧
    statusErr (raiseDomainError c s).status = statusErr (raiseDomainError c' s).status ∧
    statusEseen (raiseDomainError c s).status = statusEseen (raiseDomainError c' s).status)

/-- R155: after an error the next word is executed like any other; only ESEEN still shows the error. -/
def Obligations.RecoveryAfterAnError : Prop :=
  (∀ (w : CmdWord) (c : Cause) (s : State), ∃ t t', issueWord w s = .next t ∧
    issueWord w (raiseDomainError c s) = .next t' ∧ t'.img = t.img ∧ t'.len = t.len ∧
    statusValid t'.status = statusValid t.status ∧ statusErr t'.status = statusErr t.status ∧
    statusCause t'.status = statusCause t.status ∧ statusEseen t'.status = true) ∧
  (∀ (w : CmdWord) (c : Cause) (xs : List Sample) (s : State), wordResult w = .ok xs →
    ∃ t, issueWord w (raiseDomainError c s) = .next t ∧ statusValid t.status = true ∧ statusErr t.status = false ∧
      statusCause t.status = 0 ∧ statusEseen t.status = true) ∧
  (∀ (w : CmdWord) (c c' : Cause) (s : State), wordResult w = .error c' →
    ∃ t, issueWord w (raiseDomainError c s) = .next t ∧ Failed c' s t) ∧
  (∀ (s t : State) (m : Move), perform m s = .next t →
    statusEseen s.status = true → statusEseen t.status = false → m = .reset)

/-! ### Arithmetic -/

/-- Rounding a ratio of integers, in the three lines of R82, and that it is the rounding of R81 (the spec derives R82
from R81). -/
def Obligations.RatioRoundingIsNearestEven : Prop :=
  ∀ p q : Nat, 0 < q →
    (2 * (p % q) < q → roundRatio .halfToEven p q = p / q) ∧
    (q < 2 * (p % q) → roundRatio .halfToEven p q = p / q + 1) ∧
    (2 * (p % q) = q → roundRatio .halfToEven p q = p / q + p / q % 2 ∧ q % 2 = 0) ∧
    IsRne ((p : ℝ) / q) (roundRatio .halfToEven p q)

/-- Rounding ratios is monotone under either tie rule (R87, the spec's own derivation), and the engine's rounding of a
ratio is the one integer R81 allows. -/
def Obligations.RoundingIsMonotoneAndUnique : Prop :=
  (∀ (t : TieRule) (p q p' q' : Nat), 0 < q → 0 < q' → p * q' ≤ p' * q → roundRatio t p q ≤ roundRatio t p' q') ∧
  (∀ p q z : Nat, 0 < q → IsRne ((p : ℝ) / q) z → roundRatio Config.tieRule p q = z)

/-- R81: the two tie rules differ exactly on the ties whose floor is even. -/
def Obligations.TieRulesDifferOnEvenTies : Prop :=
  ∀ p q : Nat, 0 < q →
    (roundRatio .halfToEven p q ≠ roundRatio .halfAway p q ↔ 2 * (p % q) = q ∧ p / q % 2 = 0) ∧
    (2 * (p % q) = q → p / q % 2 = 0 →
      roundRatio .halfToEven p q = p / q ∧ roundRatio .halfAway p q = p / q + 1)

/-- The range of R87, the spec's own derivation from R81 and R84: what is rounded in [0, 255] stays there, so every
value a generator stores is a Sample and none wraps; the formula of the triangle would leave the range at an odd
count, which is why that count is refused. -/
def Obligations.RoundedValuesAreSamples : Prop :=
  (∀ (x : ℝ) (z : Nat), 0 ≤ x → x ≤ 255 → IsRne x z → z ≤ 255) ∧
  (IsRne 0 0 ∧ IsRne 255 255) ∧
  (∀ (x y : ℝ) (z v : Nat), 0 ≤ x → x ≤ y → IsRne x z → IsRne y v → z ≤ v) ∧
  (∀ (s : ℝ) (z : Nat), -1 ≤ s → s ≤ 1 → IsRne (255 * ((s + 1) / 2)) z → z ≤ 255) ∧
  (∀ (t : TieRule) (k m : Nat), 0 < m → k ≤ m → roundRatio t (k * 255) m ≤ 255) ∧
  (∀ (t : TieRule) (n k : Nat), k < n → quantize t (sineAmplitude n k) ≤ 255) ∧
  (∀ (t : TieRule) (n k : Nat), 4 ≤ n → n % 2 = 0 → k < n → triValue t n k ≤ 255) ∧
  (∀ t : TieRule, 255 < triValue t 5 2)

/-- R83: the half length, and its bits. -/
def Obligations.HalfLengthIsTheUpperBits : Prop :=
  (∀ n : Nat, half n = n / 2 ∧ (n % 2 = 0 → 2 * half n = n) ∧ (n % 2 = 1 → 2 * half n + 1 = n)) ∧
  (∀ n : Count, half (countValue n) = n.toNat / 2 ^ 1 % 2 ^ 15)

/-- Quantization (R84) of a rational amplitude: normalise, scale, round once. -/
def Obligations.QuantizeIsNormaliseScaleRound : Prop :=
  (∀ f : Frac, 0 < f.den → f.num ≤ f.den →
    IsRne (255 * (((f.num : ℝ) / f.den + 1) / 2)) (quantize .halfToEven ⟨false, f⟩) ∧
    IsRne (255 * ((-((f.num : ℝ) / f.den) + 1) / 2)) (quantize .halfToEven ⟨true, f⟩)) ∧
  quantize .halfToEven ⟨true, ⟨1, 1⟩⟩ = 0 ∧ quantize .halfToEven ⟨false, ⟨1, 1⟩⟩ = 255 ∧
  quantize .halfToEven ⟨false, ⟨0, 1⟩⟩ = 128 ∧ quantize .halfToEven ⟨false, ⟨1, 2⟩⟩ = 191 ∧
  quantize .halfToEven ⟨true, ⟨1, 2⟩⟩ = 64

/-- Off a tie, opposite amplitudes quantize to mirror values about mid-scale, and both signs of zero give 128 (R86, the
spec's own derivation). R86 calls 0 the one tie, which holds of the sines of its waveforms; a rational amplitude
`2j/255` is a tie too, and need not mirror: 2/255 gives 128 and its opposite 126. Nothing is claimed there. -/
def Obligations.OppositeAmplitudesMirror : Prop :=
  ∀ (t : TieRule) (f : Frac), 0 < f.den → f.num ≤ f.den →
    ((normalise ⟨false, f⟩).num + (normalise ⟨true, f⟩).num = (normalise ⟨false, f⟩).den ∧
      (normalise ⟨true, f⟩).den = (normalise ⟨false, f⟩).den) ∧
    (2 * (255 * (normalise ⟨false, f⟩).num % (normalise ⟨false, f⟩).den) ≠ (normalise ⟨false, f⟩).den →
      quantize t ⟨true, f⟩ + quantize t ⟨false, f⟩ = 255) ∧
    (f.num = 0 → quantize t ⟨true, f⟩ = 128 ∧ quantize t ⟨false, f⟩ = 128)

/-! ### The sine -/

/-- The sample the model computes is, for every count, the exactly rounded one of R101 and R85. The way of computing it is
the model's choice (log entry 3). -/
def Obligations.SineSampleIsExactlyRounded : Prop :=
  ∀ n k : Nat, k < n →
    IsRne (255 * ((Real.sin (2 * Real.pi * k / n) + 1) / 2)) (quantize Config.tieRule (sineAmplitude n k))

/-- `GEN_SINE` completes for every count and state and leaves the exactly rounded block, everything else as `Commit`
says (R101). -/
def Obligations.GenSineLeavesExactBlock : Prop :=
  ∀ (n : Count) (s : State), ∃ t, exec (.genSine n) s = .next t ∧
    ∃ z : Nat → Nat,
      (∀ k, k < n.toNat → z k ≤ 255 ∧ IsRne (255 * ((Real.sin (2 * Real.pi * k / n.toNat) + 1) / 2)) (z k)) ∧
      Committed n.toNat (fun k => BitVec.ofNat 8 (z k)) s t

/-- The sine block of every count is the same under either tie rule (R85). -/
def Obligations.SineBlockIgnoresTieRule : Prop :=
  ∀ (t t' : TieRule) (n : Nat), sineBlock t n = sineBlock t' n

/-- The symmetries of the sine block (R101): mirror about mid-scale across the period except where the sine is 0, and
reflection about the quarter for even counts. -/
def Obligations.SineBlockSymmetries : Prop :=
  (∀ n k : Nat, 0 < k → k < n → 2 * k ≠ n →
    (blockSample .sine n (n - k)).toNat + (blockSample .sine n k).toNat = 255) ∧
  (∀ n k : Nat, n % 2 = 0 → 0 < n → k ≤ n / 2 → blockSample .sine n (n / 2 - k) = blockSample .sine n k)

/-- The corner values of the sine block (R101): phase 0 and the half period give 128, the quarter 255, three quarters
0. -/
def Obligations.SineBlockCorners : Prop :=
  (∀ n : Nat, 0 < n → blockSample .sine n 0 = 128) ∧
  (∀ n : Nat, 0 < n → n % 2 = 0 → blockSample .sine n (n / 2) = 128) ∧
  (∀ n : Nat, 0 < n → n % 4 = 0 → blockSample .sine n (n / 4) = 255 ∧ blockSample .sine n (3 * n / 4) = 0) ∧
  sineBlock Config.tieRule 0 = .ok [] ∧ sineBlock Config.tieRule 1 = .ok [128] ∧
  sineBlock Config.tieRule 2 = .ok [128, 128]

/-- The default sine block is the table of R105. -/
def Obligations.DefaultSineBlockIsTheTable : Prop :=
  sineBlock Config.tieRule 256 = .ok (
    ([128, 131, 134, 137, 140, 143, 146, 149, 152, 155, 158, 162, 165, 167, 170, 173,
      176, 179, 182, 185, 188, 190, 193, 196, 198, 201, 203, 206, 208, 211, 213, 215,
      218, 220, 222, 224, 226, 228, 230, 232, 234, 235, 237, 238, 240, 241, 243, 244,
      245, 246, 248, 249, 250, 250, 251, 252, 253, 253, 254, 254, 254, 255, 255, 255] : List Sample) ++
    [255, 255, 255, 255, 254, 254, 254, 253, 253, 252, 251, 250, 250, 249, 248, 246,
      245, 244, 243, 241, 240, 238, 237, 235, 234, 232, 230, 228, 226, 224, 222, 220,
      218, 215, 213, 211, 208, 206, 203, 201, 198, 196, 193, 190, 188, 185, 182, 179,
      176, 173, 170, 167, 165, 162, 158, 155, 152, 149, 146, 143, 140, 137, 134, 131] ++
    [128, 124, 121, 118, 115, 112, 109, 106, 103, 100, 97, 93, 90, 88, 85, 82,
      79, 76, 73, 70, 67, 65, 62, 59, 57, 54, 52, 49, 47, 44, 42, 40,
      37, 35, 33, 31, 29, 27, 25, 23, 21, 20, 18, 17, 15, 14, 12, 11,
      10, 9, 7, 6, 5, 5, 4, 3, 2, 2, 1, 1, 1, 0, 0, 0] ++
    [0, 0, 0, 0, 1, 1, 1, 2, 2, 3, 4, 5, 5, 6, 7, 9,
      10, 11, 12, 14, 15, 17, 18, 20, 21, 23, 25, 27, 29, 31, 33, 35,
      37, 40, 42, 44, 47, 49, 52, 54, 57, 59, 62, 65, 67, 70, 73, 76,
      79, 82, 85, 88, 90, 93, 97, 100, 103, 106, 109, 112, 115, 118, 121, 124])

/-! ### Square, sawtooth, triangle -/

/-- `GEN_SQUARE` completes for every count and state: `n div 2` samples of 255, then samples of 0 (R102). -/
def Obligations.GenSquareLeavesHalfHigh : Prop :=
  ∀ (n : Count) (s : State), ∃ t, exec (.genSquare n) s = .next t ∧
    Committed n.toNat (fun k => if k < n.toNat / 2 then 255 else 0) s t

/-- `GEN_SAW` with at least two samples completes in every state and leaves the rounded ramp (R103). -/
def Obligations.GenSawLeavesRoundedRamp : Prop :=
  ∀ (n : Count) (s : State), 2 ≤ n.toNat → ∃ t, exec (.genSaw n) s = .next t ∧
    ∃ z : Nat → Nat,
      (∀ k, k < n.toNat → z k ≤ 255 ∧ IsRne ((k : ℝ) * 255 / ((n.toNat : ℝ) - 1)) (z k)) ∧
      Committed n.toNat (fun k => BitVec.ofNat 8 (z k)) s t

/-- `GEN_SAW` with fewer than two samples raises COUNT_TOO_SMALL and leaves nothing (R103). -/
def Obligations.GenSawTooSmallFails : Prop :=
  ∀ (n : Count) (s : State), n.toNat < 2 → ∃ t, exec (.genSaw n) s = .next t ∧ Failed .countTooSmall s t

/-- The sawtooth block starts at 0, ends at 255 and never falls (R103). -/
def Obligations.SawRisesFromZeroToFull : Prop :=
  ∀ n : Nat, 2 ≤ n →
    blockSample .sawtooth n 0 = 0 ∧ blockSample .sawtooth n (n - 1) = 255 ∧
    (∀ j k : Nat, j ≤ k → k < n → (blockSample .sawtooth n j).toNat ≤ (blockSample .sawtooth n k).toNat)

/-- `GEN_TRI` with an even count of at least four completes in every state and leaves the rounded rise and fall
(R104). -/
def Obligations.GenTriLeavesRiseAndFall : Prop :=
  ∀ (n : Count) (s : State), 4 ≤ n.toNat → n.toNat % 2 = 0 → ∃ t, exec (.genTri n) s = .next t ∧
    ∃ z : Nat → Nat,
      (∀ k, k < n.toNat → z k ≤ 255 ∧
        (k < n.toNat / 2 → IsRne ((k : ℝ) * 255 / ((n.toNat / 2 : Nat) - 1 : ℝ)) (z k)) ∧
        (n.toNat / 2 ≤ k → IsRne (((n.toNat : ℝ) - 1 - k) * 255 / ((n.toNat / 2 : Nat) - 1 : ℝ)) (z k))) ∧
      Committed n.toNat (fun k => BitVec.ofNat 8 (z k)) s t

/-- `GEN_TRI` fails with COUNT_TOO_SMALL below four samples and with COUNT_ODD on odd counts from five on (R104). -/
def Obligations.GenTriRejectsCounts : Prop :=
  ∀ (n : Count) (s : State),
    (n.toNat < 4 → ∃ t, exec (.genTri n) s = .next t ∧ Failed .countTooSmall s t) ∧
    (5 ≤ n.toNat → n.toNat % 2 = 1 → ∃ t, exec (.genTri n) s = .next t ∧ Failed .countOdd s t)

/-- The triangle block (R104): end and peak values, exact mirror symmetry, and the rising half is the sawtooth of half
the size. -/
def Obligations.TriangleMirrorsItsRisingSaw : Prop :=
  ∀ n : Nat, 4 ≤ n → n % 2 = 0 →
    blockSample .triangle n 0 = 0 ∧ blockSample .triangle n (n / 2 - 1) = 255 ∧
    blockSample .triangle n (n / 2) = 255 ∧ blockSample .triangle n (n - 1) = 0 ∧
    (∀ k, k < n → blockSample .triangle n k = blockSample .triangle n (n - 1 - k)) ∧
    (∀ k, k < n / 2 → blockSample .triangle n k = blockSample .sawtooth (n / 2) k)

/-- The closed form of the default triangle block (R107), under either tie rule. -/
def Obligations.DefaultTriangleClosedForm : Prop :=
  ∀ (t : TieRule) (k : Nat), k < 256 →
    triValue t 256 k =
      if k ≤ 63 then 2 * k else if k ≤ 127 then 2 * k + 1
      else if k ≤ 191 then 2 * (255 - k) + 1 else 2 * (255 - k)

/-- The table of R106, the spec's own derivation from R101 to R104: the outcome of each generator as a function of its
count alone. -/
def Obligations.GeneratorOutcomesByCount : Prop :=
  (∀ (sh : Shape) (n : Count) (s : State),
    exec (Instr.ofShape sh n) s = .next (finish (gen Config.tieRule sh n.toNat) s)) ∧
  (gen Config.tieRule .sine 0 = .ok [] ∧ gen Config.tieRule .square 0 = .ok [] ∧
    gen Config.tieRule .sawtooth 0 = .error .countTooSmall ∧ gen Config.tieRule .triangle 0 = .error .countTooSmall) ∧
  (gen Config.tieRule .sine 1 = .ok [128] ∧ gen Config.tieRule .square 1 = .ok [0] ∧
    gen Config.tieRule .sawtooth 1 = .error .countTooSmall ∧ gen Config.tieRule .triangle 1 = .error .countTooSmall) ∧
  (gen Config.tieRule .sine 2 = .ok [128, 128] ∧ gen Config.tieRule .square 2 = .ok [255, 0] ∧
    gen Config.tieRule .sawtooth 2 = .ok [0, 255] ∧ gen Config.tieRule .triangle 2 = .error .countTooSmall) ∧
  (gen Config.tieRule .sine 3 = .ok [128, 238, 17] ∧ gen Config.tieRule .square 3 = .ok [255, 0, 0] ∧
    gen Config.tieRule .sawtooth 3 = .ok [0, 128, 255] ∧ gen Config.tieRule .triangle 3 = .error .countTooSmall) ∧
  (gen Config.tieRule .sine 4 = .ok [128, 255, 128, 0] ∧ gen Config.tieRule .square 4 = .ok [255, 255, 0, 0] ∧
    gen Config.tieRule .sawtooth 4 = .ok [0, 85, 170, 255] ∧ gen Config.tieRule .triangle 4 = .ok [0, 255, 255, 0]) ∧
  (∀ n : Nat, 5 ≤ n → n % 2 = 1 →
    (∀ sh : Shape, sh ≠ .triangle → ∃ xs, gen Config.tieRule sh n = .ok xs ∧ xs.length = n) ∧
    gen Config.tieRule .triangle n = .error .countOdd) ∧
  (∀ n : Nat, 6 ≤ n → n % 2 = 0 → ∀ sh : Shape, ∃ xs, gen Config.tieRule sh n = .ok xs ∧ xs.length = n)

/-! ### The ROM Image -/

/-- `BUILD_ROM` completes in every state, with the outcome its error table gives (R120). -/
def Obligations.BuildRomOutcomes : Prop :=
  ∀ (nb : BlockCount) (bs : Count) (s : State), ∃ t, exec (.buildRom nb bs) s = .next t ∧
    (nb ≠ 4 → Failed .blockCount s t) ∧
    (nb = 4 → bs.toNat < 4 → Failed .countTooSmall s t) ∧
    (nb = 4 → 5 ≤ bs.toNat → bs.toNat % 2 = 1 → Failed .countOdd s t) ∧
    (nb = 4 → 4 ≤ bs.toNat → bs.toNat % 2 = 0 →
      Committed (4 * bs.toNat)
        (fun i => blockSample (Shape.ofCode (BitVec.ofNat 2 (i / bs.toNat))) bs.toNat (i % bs.toNat)) s t)

/-- R124: block lookup in a ROM Image, both ways of writing it; the blocks fill the image. -/
def Obligations.RomImageBlockLookup : Prop :=
  ∀ (n : Count) (s : State), 4 ≤ n.toNat → n.toNat % 2 = 0 → ∃ t, exec (.buildRom 4 n) s = .next t ∧
    t.len.toNat = 4 * n.toNat ∧
    (∀ (sh : Shape) (k : Nat), k < n.toNat →
      Memory.read t.img (sh.code.toNat * n.toNat + k) = some (blockSample sh n.toNat k)) ∧
    (∀ i : Nat, i < 4 * n.toNat → ∃ sh : Shape, sh.code.toNat = i / n.toNat ∧
      Memory.read t.img i = some (blockSample sh n.toNat (i % n.toNat))) ∧
    (∀ i : Nat, 4 * n.toNat ≤ i → Memory.read t.img i = none)

/-- The address decode of R41 for a ROM Image, and of the default image by its bits (the spec derives the split by
bits). -/
def Obligations.RomImageAddressDecode : Prop :=
  (∀ (n : Count) (s t : State) (i : Nat), exec (.buildRom 4 n) s = .next t → statusValid t.status = true →
    i < 4 * n.toNat → t.len.toNat = 4 * n.toNat ∧ ∃ sh : Shape, sh.code.toNat = i / n.toNat ∧
      Memory.read t.img i = some (blockSample sh n.toNat (i % n.toNat))) ∧
  (∀ (s t : State) (i : BitVec 10), exec (.buildRom 4 256) s = .next t →
    Memory.read t.img i.toNat =
      some (blockSample (Shape.ofCode (i.extractLsb' 8 2)) 256 (i.extractLsb' 0 8).toNat)) ∧
  (∀ (s t : State) (k : Nat), exec (.buildRom 4 256) s = .next t → k < 256 →
    Memory.read t.img (0x000 + k) = some (blockSample .sine 256 k) ∧
    Memory.read t.img (0x100 + k) = some (blockSample .square 256 k) ∧
    Memory.read t.img (0x200 + k) = some (blockSample .sawtooth 256 k) ∧
    Memory.read t.img (0x300 + k) = some (blockSample .triangle 256 k))

/-- The default image (R121): word 0x80040100 from any state leaves 1024 samples with the square and sawtooth blocks
as listed; no byte of the image depends on the tie rule. -/
def Obligations.DefaultImageContents : Prop :=
  (∀ s : State, ∃ t, issueWord 0x80040100 s = .next t ∧ t.len = 1024 ∧ statusValid t.status = true ∧
    statusErr t.status = false ∧
    (∀ a, 256 ≤ a → a ≤ 383 → Memory.read t.img a = some 255) ∧
    (∀ a, 384 ≤ a → a ≤ 511 → Memory.read t.img a = some 0) ∧
    (∀ k, k < 256 → Memory.read t.img (512 + k) = some (BitVec.ofNat 8 k)) ∧
    Memory.read t.img 0 = some 128 ∧ Memory.read t.img 64 = some 255 ∧ Memory.read t.img 192 = some 0 ∧
    Memory.read t.img 831 = some 126 ∧ Memory.read t.img 832 = some 129 ∧ Memory.read t.img 1024 = none) ∧
  (∀ t t' : TieRule, romImage t 4 256 = romImage t' 4 256)

/-! ### Reads and reset -/

/-- `ReadImg` (R122): a Sample below LEN, a fault from LEN on; no state of the engine changes. Under the invariant a
cell below LEN always holds a Sample. That a faulting read goes on and marks the run is log entry 2. -/
def Obligations.ReadImgBelowLenElseFault : Prop :=
  (∀ (s : State) (a : ImgAddr) (v : Sample), a < s.len → Memory.read s.img a.toNat = some v →
    readImg a s = .sample v) ∧
  (∀ (s : State) (a : ImgAddr), EngineInv s → a < s.len → ∃ v, Memory.read s.img a.toNat = some v ∧ readImg a s = .sample v) ∧
  (∀ (s : State) (a : ImgAddr), s.len ≤ a → readImg a s = .fault (.unwrittenCell a)) ∧
  (∀ (s : State) (a : ImgAddr), ∃ t, perform (.readImg a) s = .next t ∧ SameEngine s t ∧
    t.answers = s.answers ++ [readImg a s] ∧ (s.len ≤ a → goneWrong t = true))

/-- R123: `ReadStatus` and `ReadLen` return the registers, change nothing, and return 0 after reset. -/
def Obligations.RegisterReadsReturnRegisters : Prop :=
  (∀ s : State, readStatus s = .status s.status ∧ ∃ t, perform .readStatus s = .next t ∧ SameEngine s t) ∧
  (∀ s : State, readLen s = .len (BitVec.ofNat 32 s.len.toNat) ∧ ∃ t, perform .readLen s = .next t ∧ SameEngine s t) ∧
  (∀ s : State, readStatus (resetEngine s) = .status 0 ∧ readLen (resetEngine s) = .len 0)

/-- R180: the reset move puts the engine in its reset state from every state, and no other move clears ESEEN. -/
def Obligations.ResetFromEveryState : Prop :=
  (∀ s : State, ∃ t, perform .reset s = .next t ∧ (∀ a, Memory.read t.img a = none) ∧ t.len = 0 ∧ t.status = 0 ∧
      statusValid t.status = false ∧ statusErr t.status = false ∧ statusCause t.status = 0 ∧
      statusEseen t.status = false ∧ SameEngine State.reset t) ∧
  (∀ (s t : State) (m : Move), perform m s = .next t → m ≠ .reset →
    statusEseen s.status = true → statusEseen t.status = true)

/-- R181, the spec's own derivation from R24, R32 and R122: after reset no cell can be read and both registers read 0;
VALID = 0 with ERR = 0 is the reset state alone. -/
def Obligations.AfterResetNothingIsReadable : Prop :=
  (∀ (s : State) (a : ImgAddr), readImg a (resetEngine s) = .fault (.unwrittenCell a)) ∧
  (∀ s : State, readStatus (resetEngine s) = .status 0 ∧ readLen (resetEngine s) = .len 0) ∧
  (∀ s : State, EngineInv s → statusValid s.status = false → statusErr s.status = false → SameEngine State.reset s) ∧
  (∀ (moves : List Move) (k : Nat) (s t : State), (∀ m ∈ moves, ∀ w, m = .issue w → ∃ c, wordResult w = .error c) →
    Sys2Proof.core.run k { resetEngine s with moves := moves } = .next t →
    ∀ a : ImgAddr, readImg a t = .fault (.unwrittenCell a))

/-- A run of reads changes nothing in the engine, and every read of one cell in it returns the same answer (R125). -/
def Obligations.SamplesKeepTheirValue : Prop :=
  ∀ (s t : State) (moves : List Move) (k : Nat), (∀ m ∈ moves, m.isRead = true) →
    Sys2Proof.core.run k { s with moves := moves } = .next t →
    SameEngine s t ∧ ∀ a : ImgAddr, readImg a t = readImg a s

/-- After any command no older, longer result shows: a cell from LEN on reads as a fault (R100, R183). -/
def Obligations.ShorterResultLeavesNoTail : Prop :=
  ∀ (w : CmdWord) (s t : State) (a : ImgAddr), issueWord w s = .next t →
    (t.len ≤ a → readImg a t = .fault (.unwrittenCell a)) ∧
    (a < t.len → ∃ v, readImg a t = .sample v ∧ ∃ xs : List Sample, wordResult w = .ok xs ∧ xs[a.toNat]? = some v)
end

