-- ==== Sys2Proof/Laws/Decode.lean ====
section
/-! SUPPORT. The words of the two formats as numbers (R61, R62, R69), and the fields of a word as numbers. -/

namespace Sys2Proof

/-- Appending two bit vectors, as numbers. -/
theorem toNat_append_sum (v w : Nat) (x : BitVec v) (y : BitVec w) :
    (x ++ y).toNat = x.toNat * 2 ^ w + y.toNat := by
  rw [BitVec.toNat_append, ← Nat.shiftLeft_add_eq_or_of_lt y.isLt, Nat.shiftLeft_eq]

/-- `Enc(Gen(s, n)) = s·2^29 + n` (R69). -/
theorem encodeG_toNat (s : Shape) (n : Count) : (encodeG s n).toNat = s.code.toNat * 2 ^ 29 + n.toNat := by
  have h : (encodeG s n).toNat = ((((0#1 ++ s.code) ++ 0#13) ++ n : BitVec (1 + 2 + 13 + 16))).toNat := rfl
  rw [h]
  simp only [toNat_append_sum, BitVec.toNat_ofNat]
  omega

/-- `Enc(Build(nb, bs)) = 2^31 + nb·2^16 + bs` (R69). -/
theorem encodeB_toNat (nb : BlockCount) (bs : Count) :
    (encodeB nb bs).toNat = 2 ^ 31 + nb.toNat * 2 ^ 16 + bs.toNat := by
  have h : (encodeB nb bs).toNat = ((((0b100#3 ++ 0#5) ++ nb) ++ bs : BitVec (3 + 5 + 8 + 16))).toNat := rfl
  rw [h]
  simp only [toNat_append_sum, BitVec.toNat_ofNat]
  omega

theorem opField_toNat (w : CmdWord) : (opField w).toNat = w.toNat / 2 ^ 29 := by
  have := w.isLt
  simp only [opField, BitVec.extractLsb'_toNat, Nat.shiftRight_eq_div_pow]
  omega

theorem shapeField_toNat (w : CmdWord) : (shapeField w).toNat = w.toNat / 2 ^ 29 % 4 := by
  simp only [shapeField, BitVec.extractLsb'_toNat, Nat.shiftRight_eq_div_pow]

theorem rsvGField_toNat (w : CmdWord) : (rsvGField w).toNat = w.toNat / 2 ^ 16 % 2 ^ 13 := by
  simp only [rsvGField, BitVec.extractLsb'_toNat, Nat.shiftRight_eq_div_pow]

theorem rsvBField_toNat (w : CmdWord) : (rsvBField w).toNat = w.toNat / 2 ^ 24 % 2 ^ 5 := by
  simp only [rsvBField, BitVec.extractLsb'_toNat, Nat.shiftRight_eq_div_pow]

theorem nbField_toNat (w : CmdWord) : (nbField w).toNat = w.toNat / 2 ^ 16 % 2 ^ 8 := by
  simp only [nbField, BitVec.extractLsb'_toNat, Nat.shiftRight_eq_div_pow]

theorem countField_toNat (w : CmdWord) : (countField w).toNat = w.toNat % 2 ^ 16 := by
  simp only [countField, BitVec.extractLsb'_toNat, Nat.shiftRight_eq_div_pow, pow_zero, Nat.div_one]

/-- The format bit `op[2]` (R60): clear exactly when `op` is below 4. -/
theorem formatBit_clear (w : CmdWord) : (opField w).getLsbD 2 = false ↔ (opField w).toNat < 4 := by
  generalize opField w = o
  revert o
  decide

@[simp] theorem shape_ofCode_code (s : Shape) : Shape.ofCode s.code = s := by cases s <;> rfl

@[simp] theorem shape_code_ofCode (c : BitVec 2) : (Shape.ofCode c).code = c := by revert c; decide

theorem encode_ofShape (s : Shape) (n : Count) : encode (Instr.ofShape s n) = encodeG s n := by cases s <;> rfl

/-- Everything `decode` can answer, by the numbers of the fields (R65, R69). -/
theorem decode_cases (w : CmdWord) :
    (w.toNat / 2 ^ 29 < 4 ∧ w.toNat / 2 ^ 16 % 2 ^ 13 ≠ 0 ∧ decode w = .error (.reservedBitsG (rsvGField w))) ∨
    (w.toNat / 2 ^ 29 < 4 ∧ w.toNat / 2 ^ 16 % 2 ^ 13 = 0 ∧
      decode w = .ok (Instr.ofShape (Shape.ofCode (shapeField w)) (countField w))) ∨
    (w.toNat / 2 ^ 29 = 4 ∧ w.toNat / 2 ^ 24 % 2 ^ 5 ≠ 0 ∧ decode w = .error (.reservedBitsB (rsvBField w))) ∨
    (w.toNat / 2 ^ 29 = 4 ∧ w.toNat / 2 ^ 24 % 2 ^ 5 = 0 ∧ decode w = .ok (.buildRom (nbField w) (countField w))) ∨
    (5 ≤ w.toNat / 2 ^ 29 ∧ decode w = .error (.reservedOp (opField w))) := by
  have ho := opField_toNat w
  have hg := rsvGField_toNat w
  have hb := rsvBField_toNat w
  have hf := formatBit_clear w
  unfold decode
  split
  · rename_i h
    have h4 := hf.mp h
    split
    · rename_i hr
      exact .inl ⟨by omega, fun h0 => hr (BitVec.eq_of_toNat_eq (by rw [hg, h0]; rfl)), rfl⟩
    · rename_i hr
      rw [not_not] at hr
      exact .inr (.inl ⟨by omega, by rw [← hg, hr]; rfl, rfl⟩)
  · rename_i h
    have h4 : ¬ (opField w).toNat < 4 := fun h' => h (hf.mpr h')
    split
    · rename_i hop
      have h5 : (opField w).toNat = 4 := by rw [hop]; rfl
      split
      · rename_i hr
        exact .inr (.inr (.inl ⟨by omega, fun h0 => hr (BitVec.eq_of_toNat_eq (by rw [hb, h0]; rfl)), rfl⟩))
      · rename_i hr
        rw [not_not] at hr
        exact .inr (.inr (.inr (.inl ⟨by omega, by rw [← hb, hr]; rfl, rfl⟩)))
    · rename_i hop
      have h5 : (opField w).toNat ≠ 4 := fun h' => hop (BitVec.eq_of_toNat_eq (by rw [h']; rfl))
      exact .inr (.inr (.inr (.inr ⟨by omega, rfl⟩)))

end Sys2Proof
end

