-- ==== Sys2Proof/Laws/Memory.lean ====
section
/-! SUPPORT. The result memory: what a laid-out sequence reads as, and that every operation keeps the canonical form. -/

namespace Sys2Proof.Machine

theorem layFrom_read (xs : List Sample) (b a : Nat) :
    Memory.read (Memory.layFrom b xs) a = if b ≤ a then xs[a - b]? else none := by
  induction xs generalizing b with
  | nil => simp [Memory.layFrom, Memory.read]
  | cons x xs ih =>
    simp only [Memory.layFrom, Memory.read, ih]
    split
    · simp_all
    · split
      · rw [if_pos (by omega), show a - b = (a - (b + 1)) + 1 by omega, List.getElem?_cons_succ]
      · rw [if_neg (by omega)]

/-- The cell at `a` holds the `a`-th Sample, and every cell beyond the sequence is unwritten (R42). -/
@[simp] theorem ofSamples_read (xs : List Sample) (a : Nat) : Memory.read (Memory.ofSamples xs) a = xs[a]? := by
  simp [Memory.ofSamples, layFrom_read]

@[simp] theorem empty_read (a : Nat) : Memory.read [] a = none := rfl

theorem layFrom_rising (xs : List Sample) (b : Nat) (h : b + xs.length ≤ Config.cap) :
    Memory.risingFrom b (Memory.layFrom b xs) = true := by
  induction xs generalizing b with
  | nil => rfl
  | cons x xs ih =>
    simp only [List.length_cons] at h
    simp only [Memory.layFrom, Memory.risingFrom, Bool.and_eq_true, decide_eq_true_eq]
    exact ⟨⟨Nat.le_refl _, by omega⟩, ih (b + 1) (by omega)⟩

theorem ofSamples_wf (xs : List Sample) (h : xs.length ≤ Config.cap) : Memory.wf (Memory.ofSamples xs) = true :=
  layFrom_rising xs 0 (by omega)

theorem empty_wf : Memory.wf [] = true := rfl

theorem commit_wf (xs : List Sample) (s : State) (h : xs.length ≤ Config.cap) : Memory.wf (commit xs s).img = true :=
  ofSamples_wf xs h

theorem raise_wf (c : Cause) (s : State) : Memory.wf (raiseDomainError c s).img = true := rfl

theorem resetEngine_wf (s : State) : Memory.wf (resetEngine s).img = true := rfl

theorem reset_wf : Memory.wf State.reset.img = true := rfl

/-- A memory rising from `b` on is unwritten below `b`. -/
theorem rising_read_below (m : Memory) (b a : Nat) (h : Memory.risingFrom b m = true) (ha : a < b) :
    Memory.read m a = none := by
  induction m generalizing b with
  | nil => rfl
  | cons cell rest ih =>
    obtain ⟨x, v⟩ := cell
    simp only [Memory.risingFrom, Bool.and_eq_true, decide_eq_true_eq] at h
    simp only [Memory.read]
    rw [if_neg (by omega)]
    exact ih (x + 1) h.2 (by omega)

end Sys2Proof.Machine
end

