-- ==== Sys2Proof/Laws/Numerics.lean ====
section
/-! SUPPORT. The facts of the exact arithmetic: what rounding a ratio can do (R82), and how it mirrors. -/

namespace Sys2Proof.Machine

theorem breakTie_halfToEven (f : Nat) : breakTie .halfToEven f = f + f % 2 := rfl

theorem breakTie_halfAway (f : Nat) : breakTie .halfAway f = f + 1 := rfl

theorem breakTie_bounds (t : TieRule) (f : Nat) : f ≤ breakTie t f ∧ breakTie t f ≤ f + 1 := by
  cases t <;> simp only [breakTie] <;> omega

/-- Everything `roundRatio` can answer: the quotient, the next integer, or the tie's choice between the two. -/
theorem roundRatio_cases (t : TieRule) (p q : Nat) :
    (2 * (p % q) < q ∧ roundRatio t p q = p / q) ∨
    (q < 2 * (p % q) ∧ roundRatio t p q = p / q + 1) ∨
    (2 * (p % q) = q ∧ roundRatio t p q = breakTie t (p / q)) := by
  unfold roundRatio
  split
  · exact .inl ⟨‹_›, rfl⟩
  · split
    · exact .inr (.inl ⟨‹_›, rfl⟩)
    · exact .inr (.inr ⟨by omega, rfl⟩)

/-- Off a tie the rounding does not depend on the tie rule. -/
theorem roundRatio_tie_irrelevant (t t' : TieRule) (p q : Nat) (h : 2 * (p % q) ≠ q) :
    roundRatio t p q = roundRatio t' p q := by
  unfold roundRatio
  split
  · rfl
  · rw [if_pos (by omega), if_pos (by omega)]

/-- The rounding error is at most one half: `|q·z - p| ≤ q / 2`. -/
theorem roundRatio_error (t : TieRule) (p q : Nat) (hq : 0 < q) :
    2 * p ≤ 2 * (q * roundRatio t p q) + q ∧ 2 * (q * roundRatio t p q) ≤ 2 * p + q := by
  have hd := Nat.div_add_mod p q
  rcases roundRatio_cases t p q with ⟨h, e⟩ | ⟨h, e⟩ | ⟨h, e⟩
  · rw [e]; omega
  · have := Nat.mod_lt p hq
    rw [e, Nat.mul_add, Nat.mul_one]; omega
  · obtain ⟨h1, h2⟩ := breakTie_bounds t (p / q)
    obtain h3 | h3 : breakTie t (p / q) = p / q ∨ breakTie t (p / q) = p / q + 1 := by omega
    · rw [e, h3]; omega
    · rw [e, h3, Nat.mul_add, Nat.mul_one]; omega

/-- A ratio that is an integer is not changed. -/
theorem roundRatio_exact (t : TieRule) (m q : Nat) (hq : 0 < q) : roundRatio t (m * q) q = m := by
  simp [roundRatio, hq]

/-- A ratio at most `m` rounds to at most `m`. -/
theorem roundRatio_le (t : TieRule) (p q m : Nat) (hq : 0 < q) (h : p ≤ m * q) : roundRatio t p q ≤ m := by
  obtain ⟨-, h2⟩ := roundRatio_error t p q hq
  by_contra hc
  have h3 : m + 1 ≤ roundRatio t p q := by omega
  have h4 : q * (m+1) ≤ q * roundRatio t p q := Nat.mul_le_mul_left _ h3
  nlinarith

/-- Two ratios over one denominator that sum to 255 round, off a tie, to integers that sum to 255. -/
theorem roundRatio_mirror (t : TieRule) (p p' q : Nat) (hq : 0 < q) (h : p + p' = 255 * q) (ht : 2 * (p % q) ≠ q) :
    roundRatio t p q + roundRatio t p' q = 255 := by
  have hd := Nat.div_add_mod p q
  have hm := Nat.mod_lt p hq
  have hd' := Nat.div_add_mod p' q
  have hm' := Nat.mod_lt p' hq
  have hsum : q * (p / q + p' / q) + (p % q + p' % q) = q * 255 := by rw [Nat.mul_add]; omega
  have hcase : (p % q + p' % q = 0 ∧ p / q + p' / q = 255) ∨ (p % q + p' % q = q ∧ p / q + p' / q = 254) := by
    have h1 : p / q + p' / q ≤ 255 := by
      by_contra hc
      have : q * 256 ≤ q * (p / q + p' / q) := Nat.mul_le_mul_left _ (by omega)
      omega
    have h2 : 254 ≤ p / q + p' / q := by
      by_contra hc
      have : q * (p / q + p' / q) ≤ q * 253 := Nat.mul_le_mul_left _ (by omega)
      omega
    rcases (by omega : p / q + p' / q = 255 ∨ p / q + p' / q = 254) with e | e
    · left; rw [e] at hsum; omega
    · right; rw [e] at hsum; omega
  rcases hcase with ⟨hc, e⟩ | ⟨hc, e⟩
  · unfold roundRatio; rw [if_pos (by omega), if_pos (by omega)]; exact e
  · unfold roundRatio
    by_cases hlt : 2 * (p % q) < q
    · rw [if_pos hlt, if_neg (by omega), if_pos (by omega)]; omega
    · rw [if_neg hlt, if_pos (by omega), if_pos (by omega)]; omega

end Sys2Proof.Machine
end

