-- ==== Sys2Proof/Laws/PerInstr.lean ====
section
/-! SUPPORT. Per-command facts: the family `OpcodeRow` says that a command's word matches its row of the opcode map under
the row's mask and carries its operands in its low bits (R63, R64). -/

namespace Sys2Proof.Laws.OpcodeRow

/-- The word's upper bits are the row's match, its low sixteen bits the last operand. -/
def Statement (i : Instr) : Prop :=
  (encode i) &&& opcodeMask i = opcodeMatch i ∧
    (encode i).toNat % 2 ^ 16 = match i with
      | .genSine n => n.toNat
      | .genSquare n => n.toNat
      | .genSaw n => n.toNat
      | .genTri n => n.toNat
      | .buildRom _ bs => bs.toNat

/-- A word under a mask of its bits from `k` on. -/
theorem masked (w m : CmdWord) (k : Nat) (hm : m = BitVec.allOnes 32 <<< k) :
    (w &&& m).toNat = w.toNat / 2 ^ k * 2 ^ k := by
  have hw := w.isLt
  have he : w &&& m = (w >>> k) <<< k := by
    rw [hm]
    refine BitVec.eq_of_getLsbD_eq fun i hi => ?_
    simp only [BitVec.getLsbD_and, BitVec.getLsbD_shiftLeft, BitVec.getLsbD_ushiftRight, BitVec.getLsbD_allOnes]
    by_cases h : i < k
    · simp [h]
    · simp [h, hi, show k + (i - k) = i by omega, show i - k < 32 by omega]
  rw [he, BitVec.toNat_shiftLeft, BitVec.toNat_ushiftRight, Nat.shiftLeft_eq, Nat.shiftRight_eq_div_pow]
  exact Nat.mod_eq_of_lt (lt_of_le_of_lt (Nat.div_mul_le_self _ _) hw)

theorem maskG : (0xFFFF0000 : CmdWord) = BitVec.allOnes 32 <<< 16 := by decide

theorem maskB : (0xFF000000 : CmdWord) = BitVec.allOnes 32 <<< 24 := by decide

theorem rowG (s : Shape) (n : Count) :
    (encodeG s n &&& 0xFFFF0000).toNat = s.code.toNat * 2 ^ 29 ∧ (encodeG s n).toNat % 2 ^ 16 = n.toNat := by
  have hn := n.isLt
  rw [masked _ _ 16 maskG, encodeG_toNat]
  omega

theorem genSine (n : Count) : Statement (.genSine n) :=
  ⟨BitVec.eq_of_toNat_eq (rowG .sine n).1, (rowG .sine n).2⟩

theorem genSquare (n : Count) : Statement (.genSquare n) :=
  ⟨BitVec.eq_of_toNat_eq (rowG .square n).1, (rowG .square n).2⟩

theorem genSaw (n : Count) : Statement (.genSaw n) :=
  ⟨BitVec.eq_of_toNat_eq (rowG .sawtooth n).1, (rowG .sawtooth n).2⟩

theorem genTri (n : Count) : Statement (.genTri n) :=
  ⟨BitVec.eq_of_toNat_eq (rowG .triangle n).1, (rowG .triangle n).2⟩

theorem buildRom (nb : BlockCount) (bs : Count) : Statement (.buildRom nb bs) := by
  have hn := nb.isLt
  have hb := bs.isLt
  refine ⟨BitVec.eq_of_toNat_eq ?_, ?_⟩
  · change (encodeB nb bs &&& 0xFF000000).toNat = 0x80000000
    rw [masked _ _ 24 maskB, encodeB_toNat]
    omega
  · change (encodeB nb bs).toNat % 2 ^ 16 = bs.toNat
    rw [encodeB_toNat]
    omega

end Sys2Proof.Laws.OpcodeRow
end

