-- ==== Sys2Proof/Laws/Rounding.lean ====
section
/-! SUPPORT. The rounding of the spec over the reals (R81): how a nearest integer is recognised. -/

namespace Sys2Proof

/-- An integer strictly nearer than one half is the rounded one. -/
theorem isRne_of_lt (x : ℝ) (z : Nat) (h1 : (z : ℝ) - 1 / 2 < x) (h2 : x < z + 1 / 2) : IsRne x z := by
  rcases le_or_gt (z : ℝ) x with h | h
  · have hf : ⌊x⌋ = (z : ℤ) := Int.floor_eq_iff.mpr ⟨by exact_mod_cast h, by push_cast; linarith⟩
    have hr : Int.fract x < 1 / 2 := by rw [Int.fract, hf]; push_cast; linarith
    exact ⟨fun _ => hf.symm, fun h' => absurd hr (not_lt.mpr h'.le), fun h' => absurd h' hr.ne,
      fun h' => absurd h' hr.ne⟩
  · have hf : ⌊x⌋ = (z : ℤ) - 1 := Int.floor_eq_iff.mpr ⟨by push_cast; linarith, by push_cast; linarith⟩
    have hr : 1 / 2 < Int.fract x := by rw [Int.fract, hf]; push_cast; linarith
    have hz : (z : ℤ) = ⌊x⌋ + 1 := by omega
    exact ⟨fun h' => absurd hr (not_lt.mpr h'.le), fun _ => hz, fun h' => absurd h' hr.ne',
      fun h' => absurd h' hr.ne'⟩

/-- At a tie the even integer is the rounded one. -/
theorem isRne_of_tie (x : ℝ) (z : Nat) (hz : z % 2 = 0) (h : x = z + 1 / 2 ∨ x = z - 1 / 2) : IsRne x z := by
  rcases h with h | h
  · have hf : ⌊x⌋ = (z : ℤ) := Int.floor_eq_iff.mpr ⟨by push_cast; linarith, by push_cast; linarith⟩
    have hr : Int.fract x = 1 / 2 := by rw [Int.fract, hf]; push_cast; linarith
    refine ⟨fun h' => absurd hr h'.ne, fun h' => absurd hr h'.ne', fun _ _ => hf.symm, fun _ ho => ?_⟩
    rw [hf] at ho
    obtain ⟨k, hk⟩ := ho
    omega
  · have hf : ⌊x⌋ = (z : ℤ) - 1 := Int.floor_eq_iff.mpr ⟨by push_cast; linarith, by push_cast; linarith⟩
    have hr : Int.fract x = 1 / 2 := by rw [Int.fract, hf]; push_cast; linarith
    refine ⟨fun h' => absurd hr h'.ne, fun h' => absurd hr h'.ne', fun _ he => ?_, fun _ _ => by omega⟩
    rw [hf] at he
    obtain ⟨k, hk⟩ := he
    omega

/-- What a rounded integer is: at most one half away, and even at a tie. -/
theorem isRne_cases (x : ℝ) (z : Nat) (h : IsRne x z) :
    ((z : ℝ) - 1 / 2 < x ∧ x < z + 1 / 2) ∨ (z % 2 = 0 ∧ (x = z + 1 / 2 ∨ x = z - 1 / 2)) := by
  obtain ⟨h1, h2, h3, h4⟩ := h
  have hx : (⌊x⌋ : ℝ) + Int.fract x = x := Int.floor_add_fract x
  have hf0 := Int.fract_nonneg x
  have hf1 := Int.fract_lt_one x
  rcases lt_trichotomy (Int.fract x) (1 / 2) with hlt | heq | hgt
  · have hz : (z : ℝ) = ⌊x⌋ := by exact_mod_cast h1 hlt
    exact .inl ⟨by linarith, by linarith⟩
  · rcases Int.even_or_odd ⌊x⌋ with he | ho
    · have hz := h3 heq he
      have hz' : (z : ℝ) = ⌊x⌋ := by exact_mod_cast hz
      rw [← hz] at he
      obtain ⟨k, hk⟩ := he
      exact .inr ⟨by omega, .inl (by linarith)⟩
    · have hz := h4 heq ho
      have hz' : (z : ℝ) = ⌊x⌋ + 1 := by exact_mod_cast hz
      obtain ⟨k, hk⟩ := ho
      exact .inr ⟨by omega, .inr (by linarith)⟩
  · have hz : (z : ℝ) = ⌊x⌋ + 1 := by exact_mod_cast h2 hgt
    exact .inl ⟨by linarith, by linarith⟩

/-- A real on the same side as `y` of every switch level `M + 1/2` in [0, 255] has the same rounded integer. -/
theorem isRne_of_same_side (x y : ℝ) (z : Nat) (hz : IsRne y z) (hx0 : 0 ≤ x) (hx1 : x ≤ 255)
    (hsame : ∀ M : Nat, M < 255 → (x < M + 1/2 ∧ y < M + 1/2) ∨ ((M:ℝ) + 1/2 < x ∧ (M:ℝ) + 1/2 < y) ∨ (x = M + 1/2 ∧ y = M + 1/2))
    (hz255 : z ≤ 255): IsRne x z := by
  rcases isRne_cases y z hz with ⟨h1, h2⟩ | ⟨he, h⟩
  · have a : x < z + 1/2 := by
      rcases Nat.lt_or_ge z 255 with hl | hl
      · rcases hsame z hl with ⟨a, b⟩ | ⟨a, b⟩ | ⟨a, b⟩ <;> linarith
      · have : (255:ℝ) ≤ z := by exact_mod_cast hl
        linarith
    have b : (z:ℝ) - 1/2 < x := by
      rcases Nat.eq_zero_or_pos z with hl | hl
      · subst hl; push_cast; linarith
      · have e : ((z - 1 : Nat) : ℝ) = z - 1 := by rw [Nat.cast_sub hl]; simp
        have := hsame (z-1) (by omega)
        rw [e] at this
        rcases this with ⟨a, b⟩ | ⟨a, b⟩ | ⟨a, b⟩ <;> linarith
    exact isRne_of_lt _ _ b a
  · rcases h with h | h
    · have hlt : z < 255 := by omega
      rcases hsame z hlt with ⟨a, b⟩ | ⟨a, b⟩ | ⟨a, b⟩
      · linarith
      · linarith
      · exact isRne_of_tie _ _ he (.inl a)
    · rcases Nat.eq_zero_or_pos z with hl | hl
      · subst hl
        have := hsame 0 (by norm_num)
        push_cast at this h
        rcases this with ⟨a, b⟩ | ⟨a, b⟩ | ⟨a, b⟩
        · exact isRne_of_lt _ _ (by push_cast; linarith) (by push_cast; linarith)
        · linarith
        · linarith
      · have e : ((z - 1 : Nat) : ℝ) = z - 1 := by rw [Nat.cast_sub hl]; simp
        have := hsame (z-1) (by omega)
        rw [e] at this
        rcases this with ⟨a, b⟩ | ⟨a, b⟩ | ⟨a, b⟩
        · linarith
        · linarith
        · exact isRne_of_tie _ _ he (.inr (by linarith))

end Sys2Proof
end

