-- ==== Sys2Proof/Laws/Sine.lean ====
section
/-! SUPPORT. The sine (R85): a winding counts the half turns in a multiple of a level's angle exactly, so the integer test
of `sineExceeds` is the comparison of the real sine with the level; by Niven's theorem the sine is on no level but 0; so
the quarter sine and the real sine compare alike with every level, for every count. -/

namespace Sys2Proof.Machine
open Real

/-- The phase `(π/2)(m/n)` of a quarter wave. -/
noncomputable def quarterPhase (m n : Nat) : ℝ := π / 2 * (m / n)

theorem quarterPhase_bounds (m n : Nat) (hm : m ≤ n) : 0 ≤ quarterPhase m n ∧ quarterPhase m n ≤ π / 2 := by
  have hr0 : (0 : ℝ) ≤ m / n := by positivity
  have hr1 : (m : ℝ) / n ≤ 1 := div_le_one_of_le₀ (by exact_mod_cast hm) (by positivity)
  have hp := Real.pi_pos
  exact ⟨mul_nonneg (by positivity) hr0, by unfold quarterPhase; nlinarith⟩

/-! ### The angle of a level -/

/-- `ψ = 2·arcsin(2j/255)`. -/
noncomputable def levelAngle (j : Nat) : ℝ := 2 * arcsin (2 * j / 255)

theorem level_bounds (j : Nat) (h0 : 0 < j) (h1 : j ≤ 127) : (0 : ℝ) < 2 * j / 255 ∧ (2 * j / 255 : ℝ) < 1 := by
  have h0' : (0 : ℝ) < j := by exact_mod_cast h0
  have h1' : (j : ℝ) ≤ 127 := by exact_mod_cast h1
  exact ⟨by positivity, by linarith⟩

theorem levelAngle_bounds (j : Nat) (h0 : 0 < j) (h1 : j ≤ 127) : 0 < levelAngle j ∧ levelAngle j < π := by
  obtain ⟨hl, hu⟩ := level_bounds j h0 h1
  have ha := arcsin_pos.mpr hl
  have hb := arcsin_lt_pi_div_two.mpr hu
  exact ⟨by unfold levelAngle; linarith, by unfold levelAngle; linarith⟩

theorem levelGap_pos (j : Nat) (h1 : j ≤ 127) : (0 : ℝ) < (levelGap j : ℝ) := by
  have h1' : (j : ℝ) ≤ 127 := by exact_mod_cast h1
  have h0' : (0 : ℝ) ≤ j := by positivity
  simp only [levelGap]; push_cast; nlinarith

/-- The two whole numbers of a level are its angle's cosine and sine, scaled. -/
theorem levelAngle_trig (j : Nat) (h0 : 0 < j) (h1 : j ≤ 127) :
    (levelCosine j : ℝ) = 255 ^ 2 * cos (levelAngle j) ∧
    (levelSine j : ℝ) * √(levelGap j : ℝ) = 255 ^ 2 * sin (levelAngle j) := by
  obtain ⟨hl, hu⟩ := level_bounds j h0 h1
  have hs : sin (arcsin (2 * j / 255 : ℝ)) = 2 * j / 255 := sin_arcsin (by linarith) hu.le
  have hc : 255 * cos (arcsin (2 * j / 255 : ℝ)) = √(levelGap j : ℝ) := by
    rw [cos_arcsin, show (levelGap j : ℝ) = 255 ^ 2 * (1 - (2 * j / 255) ^ 2) by simp only [levelGap]; push_cast; ring,
      sqrt_mul (by positivity), sqrt_sq (by norm_num)]
  constructor
  · rw [levelAngle, cos_two_mul, cos_sq', hs]; simp only [levelCosine]; push_cast; ring
  · rw [levelAngle, sin_two_mul, hs, ← hc]; simp only [levelSine]; push_cast; ring

/-! ### Windings -/

/-- `x` is where `t` turns by the angle of level `j` end. -/
structure WindsTo (j t : Nat) (x : Winding) : Prop where
  cosine : (x.cosine : ℝ) = 255 ^ (2 * t) * cos (t * levelAngle j)
  sine : (x.sine : ℝ) * √(levelGap j : ℝ) = 255 ^ (2 * t) * sin (t * levelAngle j)
  low : x.halfTurns * π ≤ t * levelAngle j
  high : t * levelAngle j < (x.halfTurns + 1) * π

theorem facing_cast (h : Nat) (v : Int) : (facing h v : ℝ) = (-1) ^ h * v := by
  unfold facing
  split
  · rw [(Nat.even_iff.mpr ‹_›).neg_one_pow]; ring
  · rw [(Nat.odd_iff.mpr (by omega)).neg_one_pow]; push_cast; ring

theorem windNone_winds (j : Nat) : WindsTo j 0 windNone :=
  ⟨by simp [windNone], by simp [windNone], by simp [windNone], by simp [windNone, pi_pos]⟩

theorem windTwice_winds (j t : Nat) (x : Winding) (h1 : j ≤ 127) (hx : WindsTo j t x) :
    WindsTo j (2 * t) (windTwice j x) := by
  obtain ⟨hc, hs, hl, hh⟩ := hx
  have hg : √(levelGap j : ℝ) * √(levelGap j : ℝ) = levelGap j := mul_self_sqrt (levelGap_pos j h1).le
  have hangle : ((2 * t : Nat) : ℝ) * levelAngle j = 2 * (t * levelAngle j) := by push_cast; ring
  have hface : facing x.halfTurns x.cosine ≤ 0 ↔ π / 2 ≤ t * levelAngle j - x.halfTurns * π := by
    have e : (facing x.halfTurns x.cosine : ℝ) = 255 ^ (2 * t) * cos (t * levelAngle j - x.halfTurns * π) := by
      rw [facing_cast, hc, cos_sub_nat_mul_pi]; ring
    have hp : (0 : ℝ) < 255 ^ (2 * t) := by positivity
    rw [← @Int.cast_le ℝ, e, Int.cast_zero]
    constructor
    · intro h
      by_contra hlt
      have := cos_pos_of_mem_Ioo (x := t * levelAngle j - x.halfTurns * π) ⟨by linarith [pi_pos], by linarith⟩
      nlinarith
    · intro h
      have := cos_nonpos_of_pi_div_two_le_of_le h (by linarith [pi_pos])
      nlinarith
  constructor
  · rw [hangle, cos_two_mul', windTwice]
    push_cast
    rw [← hg, hc, show √(levelGap j : ℝ) * √(levelGap j : ℝ) * ((x.sine : ℝ) * x.sine) =
      (x.sine * √(levelGap j : ℝ)) * (x.sine * √(levelGap j : ℝ)) by ring, hs]
    ring
  · rw [hangle, sin_two_mul, windTwice]
    push_cast
    rw [show 2 * ((x.cosine : ℝ) * x.sine) * √(levelGap j : ℝ) = 2 * (x.cosine * (x.sine * √(levelGap j : ℝ))) by ring,
      hs, hc]
    ring
  · rw [hangle, windTwice]
    split
    · have := hface.mp ‹_›; push_cast; linarith
    · push_cast; linarith
  · rw [hangle, windTwice]
    split
    · push_cast; linarith
    · have := mt hface.mpr ‹_›; push_cast; linarith

theorem windOnce_winds (j t : Nat) (x : Winding) (h0 : 0 < j) (h1 : j ≤ 127) (hx : WindsTo j t x) :
    WindsTo j (t + 1) (windOnce j x) := by
  obtain ⟨hc, hs, hl, hh⟩ := hx
  obtain ⟨lc, ls⟩ := levelAngle_trig j h0 h1
  obtain ⟨a0, a1⟩ := levelAngle_bounds j h0 h1
  have hgp : 0 < √(levelGap j : ℝ) := sqrt_pos.mpr (levelGap_pos j h1)
  have hg : √(levelGap j : ℝ) * √(levelGap j : ℝ) = levelGap j := mul_self_sqrt (levelGap_pos j h1).le
  have hangle : ((t + 1 : Nat) : ℝ) * levelAngle j = t * levelAngle j + levelAngle j := by push_cast; ring
  have hsine : ((levelCosine j * x.sine + levelSine j * x.cosine : Int) : ℝ) * √(levelGap j : ℝ) =
      255 ^ (2 * (t + 1)) * sin (t * levelAngle j + levelAngle j) := by
    push_cast
    rw [add_mul, mul_assoc, hs, mul_right_comm, ls, lc, hc, sin_add]
    ring
  have hface : facing x.halfTurns (levelCosine j * x.sine + levelSine j * x.cosine) ≤ 0 ↔
      π ≤ t * levelAngle j + levelAngle j - x.halfTurns * π := by
    have e : (facing x.halfTurns (levelCosine j * x.sine + levelSine j * x.cosine) : ℝ) * √(levelGap j : ℝ) =
        255 ^ (2 * (t + 1)) * sin (t * levelAngle j + levelAngle j - x.halfTurns * π) := by
      rw [facing_cast, mul_assoc, hsine, sin_sub_nat_mul_pi]; ring
    have hp : (0 : ℝ) < 255 ^ (2 * (t + 1)) := by positivity
    rw [← @Int.cast_le ℝ, Int.cast_zero]
    constructor
    · intro h
      by_contra hlt
      have := sin_pos_of_pos_of_lt_pi (x := t * levelAngle j + levelAngle j - x.halfTurns * π) (by linarith)
        (by linarith)
      nlinarith [mul_nonpos_of_nonpos_of_nonneg h hgp.le, mul_pos hp this]
    · intro h
      have h' : sin (t * levelAngle j + levelAngle j - x.halfTurns * π) ≤ 0 := by
        have := sin_nonneg_of_nonneg_of_le_pi (x := t * levelAngle j + levelAngle j - x.halfTurns * π - π)
          (by linarith) (by linarith)
        rw [sin_sub_pi] at this
        linarith
      by_contra hlt
      nlinarith [mul_pos (not_le.mp hlt) hgp, mul_nonneg hp.le (neg_nonneg.mpr h')]
  constructor
  · rw [hangle, cos_add, windOnce]
    push_cast
    rw [← hg, lc, hc, show √(levelGap j : ℝ) * √(levelGap j : ℝ) * ((levelSine j : ℝ) * x.sine) =
      (levelSine j * √(levelGap j : ℝ)) * (x.sine * √(levelGap j : ℝ)) by ring, hs, ls]
    ring
  · rw [hangle]; exact hsine
  · rw [hangle, windOnce]
    split
    · have := hface.mp ‹_›; push_cast; linarith
    · push_cast; linarith
  · rw [hangle, windOnce]
    split
    · push_cast; linarith
    · have := mt hface.mpr ‹_›; push_cast; linarith

theorem wind_winds (j fuel n : Nat) (h0 : 0 < j) (h1 : j ≤ 127) (hf : n ≤ fuel) : WindsTo j n (wind j fuel n) := by
  induction fuel generalizing n with
  | zero => rw [show n = 0 by omega]; exact windNone_winds j
  | succ fuel ih =>
    simp only [wind]
    split
    · rw [‹n = 0›]; exact windNone_winds j
    · have half := windTwice_winds j _ _ h1 (ih (n / 2) (by omega))
      split
      · rwa [show 2 * (n / 2) = n by omega] at half
      · have next := windOnce_winds j _ _ h0 h1 half
        rwa [show 2 * (n / 2) + 1 = n by omega] at next

/-- The integer test is the comparison of the real sine with the level. -/
theorem sineExceeds_iff (j m n : Nat) (h0 : 0 < j) (h1 : j ≤ 127) (hn : 0 < n) (hm : m ≤ n) :
    sineExceeds j m n = true ↔ (2 * j / 255 : ℝ) < sin (quarterPhase m n) := by
  obtain ⟨-, -, hl, hh⟩ := wind_winds j n n h0 h1 le_rfl
  obtain ⟨b0, b1⟩ := level_bounds j h0 h1
  obtain ⟨p0, p1⟩ := quarterPhase_bounds m n hm
  have hn' : (0 : ℝ) < n := by exact_mod_cast hn
  have hphase : quarterPhase m n * (2 * n) = m * π := by rw [quarterPhase]; field_simp
  have hangle : arcsin (2 * j / 255) * (2 * n) = n * levelAngle j := by rw [levelAngle]; ring
  rw [← arcsin_lt_iff_lt_sin' ⟨by linarith [pi_pos], p1⟩, sineExceeds, decide_eq_true_eq,
    ← mul_lt_mul_iff_left₀ (show (0 : ℝ) < 2 * n by positivity), hphase, hangle]
  constructor
  · intro h
    have : ((wind j n n).halfTurns : ℝ) + 1 ≤ m := by exact_mod_cast h
    exact hh.trans_le (mul_le_mul_of_nonneg_right this pi_pos.le)
  · intro h
    have := lt_of_mul_lt_mul_right (hl.trans_lt h) pi_pos.le
    exact_mod_cast this

/-! ### The quarter sine -/

theorem highestLevel_le (m n b : Nat) : highestLevel m n b ≤ b := by
  induction b with
  | zero => exact le_rfl
  | succ b ih => simp only [highestLevel]; split <;> omega

/-- Up to `b`, the sine exceeds a level exactly when the highest level is not below it. -/
theorem highestLevel_iff (m n b j : Nat) (hb : b ≤ 127) (hn : 0 < n) (hm : m ≤ n) (h0 : 0 < j) (hj : j ≤ b) :
    j ≤ highestLevel m n b ↔ (2 * j / 255 : ℝ) < sin (quarterPhase m n) := by
  induction b with
  | zero => omega
  | succ b ih =>
    have htop := sineExceeds_iff (b + 1) m n (by omega) hb hn hm
    simp only [highestLevel]
    split
    · refine ⟨fun _ => lt_of_le_of_lt ?_ (htop.mp ‹_›), fun _ => hj⟩
      have : (j : ℝ) ≤ ((b + 1 : Nat) : ℝ) := by exact_mod_cast hj
      linarith
    · rcases Nat.lt_or_ge b j with h | h
      · rw [show j = b + 1 by omega, ← htop]
        have := highestLevel_le m n b
        exact ⟨fun _ => by omega, fun h => absurd h ‹_›⟩
      · exact ih (by omega) h

/-- The sine of a rational part of a quarter is on no level but 0, so no sample but that of a zero is a tie (Niven). -/
theorem sine_ne_level (m n j : Nat) (h0 : 0 < j) (h1 : j ≤ 127) : sin (quarterPhase m n) ≠ 2 * j / 255 := by
  intro h
  have hmem := niven_sin (θ := quarterPhase m n) ⟨(m / n / 2 : ℚ), by rw [quarterPhase]; push_cast; ring⟩
    ⟨(2 * j / 255 : ℚ), by rw [h]; push_cast; ring⟩
  rw [h] at hmem
  obtain ⟨b0, b1⟩ := level_bounds j h0 h1
  simp only [Set.mem_insert_iff, Set.mem_singleton_iff] at hmem
  rcases hmem with h | h | h | h | h
  · linarith
  · linarith
  · linarith
  · have : (4 * j : ℝ) = 255 := by linarith
    have : 4 * j = 255 := by exact_mod_cast this
    omega
  · linarith

theorem quarterSine_den (m n : Nat) : (quarterSine m n).den = 255 := by unfold quarterSine; split <;> rfl

theorem quarterSine_zero (n : Nat) : quarterSine 0 n = ⟨0, 255⟩ := rfl

theorem quarterSine_num (m n : Nat) (h : 0 < m) : (quarterSine m n).num = 2 * highestLevel m n 127 + 1 := by
  rw [quarterSine, if_neg (by omega)]

/-- The quarter sine is at most 1. -/
theorem quarterSine_le_one (m n : Nat) : (quarterSine m n).num ≤ (quarterSine m n).den := by
  have := highestLevel_le m n 127
  unfold quarterSine
  split <;> dsimp only <;> omega

/-- At every level `2j/255`, 0 among them, the sine and the quarter sine compare alike. -/
theorem quarterSine_level (m n : Nat) (hn : 0 < n) (hm : m ≤ n) (j : Nat) (hj : j ≤ 127) :
    (sin (quarterPhase m n) < 2 * j / 255 ∧ ((quarterSine m n).num : ℝ) / (quarterSine m n).den < 2 * j / 255) ∨
    (2 * j / 255 < sin (quarterPhase m n) ∧ 2 * j / 255 < ((quarterSine m n).num : ℝ) / (quarterSine m n).den) ∨
    (sin (quarterPhase m n) = 2 * j / 255 ∧ ((quarterSine m n).num : ℝ) / (quarterSine m n).den = 2 * j / 255) := by
  rcases Nat.eq_zero_or_pos m with rfl | h
  · have hs : sin (quarterPhase 0 n) = 0 := by simp [quarterPhase]
    rw [hs, quarterSine_zero]
    rcases Nat.eq_zero_or_pos j with rfl | hj0
    · exact .inr (.inr ⟨by simp, by simp⟩)
    · have := (level_bounds j hj0 hj).1
      exact .inl ⟨this, by simpa using this⟩
  · rw [quarterSine_num m n h, quarterSine_den]
    have hnum : ((2 * highestLevel m n 127 + 1 : Nat) : ℝ) = 2 * (highestLevel m n 127 : ℝ) + 1 := by push_cast; ring
    rw [hnum]
    rcases Nat.eq_zero_or_pos j with rfl | hj0
    · have hp : 0 < quarterPhase m n := by
        have : (0 : ℝ) < m / n := div_pos (by exact_mod_cast h) (by exact_mod_cast hn)
        exact mul_pos (by positivity) this
      have hs := sin_pos_of_pos_of_lt_pi hp (by linarith [(quarterPhase_bounds m n hm).2, pi_pos])
      refine .inr (.inl ⟨by simpa using hs, ?_⟩)
      push_cast; rw [mul_zero, zero_div]; positivity
    · have hiff := highestLevel_iff m n 127 j le_rfl hn hm hj0 hj
      rcases Nat.lt_or_ge (highestLevel m n 127) j with hlt | hge
      · have hle := not_lt.mp (mt hiff.mpr (by omega))
        refine .inl ⟨lt_of_le_of_ne hle (sine_ne_level m n j hj0 hj), ?_⟩
        have : (highestLevel m n 127 : ℝ) + 1 ≤ j := by exact_mod_cast hlt
        push_cast; linarith
      · refine .inr (.inl ⟨hiff.mp hge, ?_⟩)
        have : (j : ℝ) ≤ highestLevel m n 127 := by exact_mod_cast hge
        push_cast; linarith

/-- At a whole quarter the quarter sine is 1. -/
theorem quarterSine_full (n : Nat) (hn : 0 < n) : quarterSine n n = ⟨255, 255⟩ := by
  have hs : sin (quarterPhase n n) = 1 := by
    rw [quarterPhase, div_self (by exact_mod_cast hn.ne'), mul_one, sin_pi_div_two]
  have htop := (highestLevel_iff n n 127 127 le_rfl hn le_rfl (by decide) le_rfl).mpr (by rw [hs]; norm_num)
  have hle := highestLevel_le n n 127
  rw [quarterSine, if_neg hn.ne', show highestLevel n n 127 = 127 by omega]

/-- Each sample's amplitude is the quarter sine at some fraction of a quarter, with the sign of the real sine. -/
theorem sineAmplitude_real (n k : Nat) (h : k < n) : ∃ m, m ≤ n ∧
    ((sineAmplitude n k = ⟨false, quarterSine m n⟩ ∧ sin (2 * π * k / n) = sin (quarterPhase m n)) ∨
     (sineAmplitude n k = ⟨true, quarterSine m n⟩ ∧ sin (2 * π * k / n) = -sin (quarterPhase m n))) := by
  have hn : 0 < n := by omega
  have hr := Nat.mod_lt (4 * k) hn
  have hd := Nat.div_add_mod (4 * k) n
  have hnr : (n : ℝ) ≠ 0 := by exact_mod_cast hn.ne'
  have hq : 4 * k / n < 4 := by rw [Nat.div_lt_iff_lt_mul hn]; omega
  have hph : 2 * π * k / n = π / 2 * ((4 * k / n : Nat) : ℝ) + quarterPhase (4 * k % n) n := by
    have : (4 * k : ℝ) = n * ((4 * k / n : Nat) : ℝ) + (4 * k % n : Nat) := by exact_mod_cast hd.symm
    rw [quarterPhase]
    have : (k : ℝ) / n = (((4 * k / n : Nat) : ℝ) + (4 * k % n : Nat) / n) / 4 := by
      field_simp; linarith
    rw [mul_div_assoc, this]; ring
  have hco : quarterPhase (n - 4 * k % n) n = π / 2 - quarterPhase (4 * k % n) n := by
    rw [quarterPhase, quarterPhase, Nat.cast_sub hr.le]; field_simp
  rw [hph]
  simp only [sineAmplitude]
  generalize 4 * k / n = q at *
  interval_cases q
  · exact ⟨_, hr.le, .inl ⟨rfl, by simp⟩⟩
  · refine ⟨_, Nat.sub_le _ _, .inl ⟨rfl, ?_⟩⟩
    rw [hco, sin_pi_div_two_sub, Nat.cast_one, mul_one, add_comm, sin_add_pi_div_two]
  · refine ⟨_, hr.le, .inr ⟨rfl, ?_⟩⟩
    rw [show π / 2 * ((2 : Nat) : ℝ) + quarterPhase (4 * k % n) n = quarterPhase (4 * k % n) n + π by push_cast; ring, sin_add_pi]
  · refine ⟨_, Nat.sub_le _ _, .inr ⟨rfl, ?_⟩⟩
    rw [hco, sin_pi_div_two_sub, show π / 2 * ((3 : Nat) : ℝ) + quarterPhase (4 * k % n) n = (quarterPhase (4 * k % n) n + π / 2) + π by push_cast; ring, sin_add_pi, sin_add_pi_div_two]

end Sys2Proof.Machine
end

