-- ==== Sys2Proof/Laws/State.lean ====
section
/-! SUPPORT. One lemma per field per update of State, each by rfl. -/

namespace Sys2Proof.Machine

@[simp] theorem commit_img (xs : List Sample) (s : State) : (commit xs s).img = Memory.ofSamples xs := rfl
@[simp] theorem commit_len (xs : List Sample) (s : State) : (commit xs s).len = BitVec.ofNat 18 xs.length := rfl
@[simp] theorem commit_status (xs : List Sample) (s : State) : (commit xs s).status = statusCommit s.status := rfl
@[simp] theorem commit_moves (xs : List Sample) (s : State) : (commit xs s).moves = s.moves := rfl
@[simp] theorem commit_answers (xs : List Sample) (s : State) : (commit xs s).answers = s.answers := rfl

@[simp] theorem raise_img (c : Cause) (s : State) : (raiseDomainError c s).img = [] := rfl
@[simp] theorem raise_len (c : Cause) (s : State) : (raiseDomainError c s).len = 0 := rfl
@[simp] theorem raise_status (c : Cause) (s : State) : (raiseDomainError c s).status = statusError s.status c := rfl
@[simp] theorem raise_moves (c : Cause) (s : State) : (raiseDomainError c s).moves = s.moves := rfl
@[simp] theorem raise_answers (c : Cause) (s : State) : (raiseDomainError c s).answers = s.answers := rfl

@[simp] theorem resetEngine_img (s : State) : (resetEngine s).img = [] := rfl
@[simp] theorem resetEngine_len (s : State) : (resetEngine s).len = 0 := rfl
@[simp] theorem resetEngine_status (s : State) : (resetEngine s).status = 0 := rfl
@[simp] theorem resetEngine_moves (s : State) : (resetEngine s).moves = s.moves := rfl
@[simp] theorem resetEngine_answers (s : State) : (resetEngine s).answers = s.answers := rfl

@[simp] theorem tell_img (r : Answer) (s : State) : (tell r s).img = s.img := rfl
@[simp] theorem tell_len (r : Answer) (s : State) : (tell r s).len = s.len := rfl
@[simp] theorem tell_status (r : Answer) (s : State) : (tell r s).status = s.status := rfl
@[simp] theorem tell_moves (r : Answer) (s : State) : (tell r s).moves = s.moves := rfl
@[simp] theorem tell_answers (r : Answer) (s : State) : (tell r s).answers = s.answers ++ [r] := rfl

@[simp] theorem withFetchWord_img (s : State) (b w : Nat) : (s.withFetchWord b w).img = s.img := rfl
@[simp] theorem withFetchWord_len (s : State) (b w : Nat) : (s.withFetchWord b w).len = s.len := rfl
@[simp] theorem withFetchWord_status (s : State) (b w : Nat) : (s.withFetchWord b w).status = s.status := rfl
@[simp] theorem withFetchWord_moves (s : State) (b w : Nat) :
    (s.withFetchWord b w).moves = moveOfTableWord b w :: s.moves := rfl
@[simp] theorem withFetchWord_answers (s : State) (b w : Nat) : (s.withFetchWord b w).answers = s.answers := rfl

@[simp] theorem reset_img : State.reset.img = [] := rfl
@[simp] theorem reset_len : State.reset.len = 0 := rfl
@[simp] theorem reset_status : State.reset.status = 0 := rfl
@[simp] theorem reset_moves : State.reset.moves = [] := rfl
@[simp] theorem reset_answers : State.reset.answers = [] := rfl

end Sys2Proof.Machine
end

