-- ==== Sys2Proof/Laws/Status.lean ====
section
/-! SUPPORT. The fields of a packed STATUS word, of the word after `Commit` (R100) and after the error entry (R152). -/

namespace Sys2Proof.Machine

/-- The bits of a packed word, from the least significant on. -/
theorem statusPack_bit (r : BitVec 26) (e : Bool) (c : BitVec 3) (er v : Bool) (i : Nat) :
    (statusPack r e c er v).getLsbD i =
      if i < 1 then v else if i < 2 then er else if i < 5 then c.getLsbD (i - 2) else if i < 6 then e
        else r.getLsbD (i - 6) := by
  change BitVec.getLsbD (w := 26 + 1 + 3 + 1 + 1) (r ++ BitVec.ofBool e ++ c ++ BitVec.ofBool er ++ BitVec.ofBool v) i = _
  simp only [BitVec.getLsbD_append, BitVec.getLsbD_ofBool]
  by_cases h0 : i < 1
  · simp [show i = 0 by omega]
  by_cases h1 : i < 2
  · simp [show i = 1 by omega]
  by_cases h2 : i < 5
  · simp [h0, h1, h2, show ¬ (i - 1 < 1) by omega, show i - 1 - 1 = i - 2 by omega]
    intro h; omega
  by_cases h3 : i < 6
  · simp [show i = 5 by omega]
  · simp [h0, h1, h2, h3, show ¬ (i - 1 < 1) by omega, show ¬ (i - 1 - 1 < 3) by omega,
      show ¬ (i - 1 - 1 - 3 < 1) by omega, show i - 1 - 1 - 3 - 1 = i - 6 by omega]

theorem statusPack_valid (r : BitVec 26) (e : Bool) (c : BitVec 3) (er v : Bool) :
    statusValid (statusPack r e c er v) = v := by
  rw [statusValid, statusPack_bit]; rfl

theorem statusPack_err (r : BitVec 26) (e : Bool) (c : BitVec 3) (er v : Bool) :
    statusErr (statusPack r e c er v) = er := by
  rw [statusErr, statusPack_bit]; rfl

theorem statusPack_cause (r : BitVec 26) (e : Bool) (c : BitVec 3) (er v : Bool) :
    statusCause (statusPack r e c er v) = c := by
  refine BitVec.eq_of_getLsbD_eq fun i hi => ?_
  rw [statusCause, BitVec.getLsbD_extractLsb', statusPack_bit, if_neg (by omega), if_neg (by omega), if_pos (by omega),
    show 2 + i - 2 = i by omega]
  simp [hi]

theorem statusPack_eseen (r : BitVec 26) (e : Bool) (c : BitVec 3) (er v : Bool) :
    statusEseen (statusPack r e c er v) = e := by
  rw [statusEseen, statusPack_bit]; rfl

theorem statusPack_reserved (r : BitVec 26) (e : Bool) (c : BitVec 3) (er v : Bool) :
    statusReserved (statusPack r e c er v) = r := by
  refine BitVec.eq_of_getLsbD_eq fun i hi => ?_
  rw [statusReserved, BitVec.getLsbD_extractLsb', statusPack_bit, if_neg (by omega), if_neg (by omega),
    if_neg (by omega), if_neg (by omega), show 6 + i - 6 = i by omega]
  simp [hi]

@[simp] theorem statusCommit_valid (w : RegWord) : statusValid (statusCommit w) = true := statusPack_valid ..
@[simp] theorem statusCommit_err (w : RegWord) : statusErr (statusCommit w) = false := statusPack_err ..
@[simp] theorem statusCommit_cause (w : RegWord) : statusCause (statusCommit w) = 0 := statusPack_cause ..
@[simp] theorem statusCommit_eseen (w : RegWord) : statusEseen (statusCommit w) = statusEseen w := statusPack_eseen ..
@[simp] theorem statusCommit_reserved (w : RegWord) : statusReserved (statusCommit w) = statusReserved w :=
  statusPack_reserved ..

@[simp] theorem statusError_valid (w : RegWord) (c : Cause) : statusValid (statusError w c) = false := statusPack_valid ..
@[simp] theorem statusError_err (w : RegWord) (c : Cause) : statusErr (statusError w c) = true := statusPack_err ..
@[simp] theorem statusError_cause (w : RegWord) (c : Cause) : statusCause (statusError w c) = c.code := statusPack_cause ..
@[simp] theorem statusError_eseen (w : RegWord) (c : Cause) : statusEseen (statusError w c) = true := statusPack_eseen ..
@[simp] theorem statusError_reserved (w : RegWord) (c : Cause) : statusReserved (statusError w c) = statusReserved w :=
  statusPack_reserved ..

theorem cause_code_bounds (c : Cause) : c.code ≠ 0 ∧ c.code.toNat ≤ 4 := by cases c <;> decide

end Sys2Proof.Machine
end

