-- ==== Sys2Proof/Laws/Step.lean ====
section
/-! SUPPORT. Everything a command, a move and a step can do, each said once: proofs about them cite these and unfold
nothing. -/

namespace Sys2Proof.Machine

/-- Every command ends in `finish` of what it computes (R69). -/
theorem exec_eq (i : Instr) (s : State) : exec i s = .next (finish (commandResult i) s) := by cases i <;> rfl

/-- Every word ends in `finish` of what it computes, an illegal word in the error entry (R65, R69). -/
theorem issueWord_eq (w : CmdWord) (s : State) : issueWord w s = .next (finish (wordResult w) s) := by
  unfold issueWord wordResult
  cases decode w with
  | ok i => exact exec_eq i s
  | error e => rfl

/-- The two ends of a command (R69). -/
theorem finish_cases (r : Except Cause (List Sample)) (s : State) :
    (∃ xs, r = .ok xs ∧ finish r s = commit xs s) ∨ (∃ c, r = .error c ∧ finish r s = raiseDomainError c s) := by
  cases r with
  | ok xs => exact .inl ⟨xs, rfl, rfl⟩
  | error c => exact .inr ⟨c, rfl, rfl⟩

theorem exec_ok (i : Instr) (xs : List Sample) (s : State) (h : commandResult i = .ok xs) :
    exec i s = .next (commit xs s) := by rw [exec_eq, h]; rfl

theorem exec_error (i : Instr) (c : Cause) (s : State) (h : commandResult i = .error c) :
    exec i s = .next (raiseDomainError c s) := by rw [exec_eq, h]; rfl

theorem issueWord_ok (w : CmdWord) (xs : List Sample) (s : State) (h : wordResult w = .ok xs) :
    issueWord w s = .next (commit xs s) := by rw [issueWord_eq, h]; rfl

theorem issueWord_error (w : CmdWord) (c : Cause) (s : State) (h : wordResult w = .error c) :
    issueWord w s = .next (raiseDomainError c s) := by rw [issueWord_eq, h]; rfl

@[simp] theorem finish_moves (r : Except Cause (List Sample)) (s : State) : (finish r s).moves = s.moves := by
  cases r <;> rfl

@[simp] theorem finish_answers (r : Except Cause (List Sample)) (s : State) : (finish r s).answers = s.answers := by
  cases r <;> rfl

theorem step_idle (s : State) (h : s.moves = []) : step s = .next s := by
  unfold step nextMove; rw [h]

theorem step_move (s : State) (m : Move) (rest : List Move) (h : s.moves = m :: rest) :
    step s = perform m { s with moves := rest } := by
  unfold step nextMove; rw [h]

/-- Everything a move can do (R142). -/
theorem perform_cases (m : Move) (s t : State) (h : perform m s = .next t) :
    (m = .reset ∧ t = resetEngine s) ∨
    (∃ w, m = .issue w ∧ t = finish (wordResult w) s) ∨
    (m.isRead = true ∧ ∃ r, t = tell r s) := by
  cases m with
  | reset => exact .inl ⟨rfl, by cases h; rfl⟩
  | issue w =>
    rw [perform, issueWord_eq] at h
    exact .inr (.inl ⟨w, rfl, by cases h; rfl⟩)
  | readStatus => exact .inr (.inr ⟨rfl, _, by cases h; rfl⟩)
  | readLen => exact .inr (.inr ⟨rfl, _, by cases h; rfl⟩)
  | readImg a => exact .inr (.inr ⟨rfl, _, by cases h; rfl⟩)

/-- Every move completes (R48). -/
theorem perform_total (m : Move) (s : State) : ∃ t, perform m s = .next t := by
  cases m with
  | reset => exact ⟨_, rfl⟩
  | issue w => exact ⟨_, issueWord_eq w s⟩
  | readStatus => exact ⟨_, rfl⟩
  | readLen => exact ⟨_, rfl⟩
  | readImg a => exact ⟨_, rfl⟩

/-- Everything a step can do. -/
theorem step_cases (s t : State) (h : step s = .next t) :
    (s.moves = [] ∧ t = s) ∨
    (∃ m rest, s.moves = m :: rest ∧ perform m { s with moves := rest } = .next t) := by
  cases hm : s.moves with
  | nil => rw [step_idle s hm] at h; cases h; exact .inl ⟨rfl, rfl⟩
  | cons m rest => rw [step_move s m rest hm] at h; exact .inr ⟨m, rest, rfl, h⟩

/-- Every step completes (R48, R143): the engine cannot hang. -/
theorem step_total (s : State) : ∃ t, step s = .next t := by
  cases h : s.moves with
  | nil => exact ⟨s, step_idle s h⟩
  | cons m rest => rw [step_move s m rest h]; exact perform_total m _

theorem run_zero (s : State) : Sys2Proof.core.run 0 s = .next s := rfl

/-- One step of a run of any machine. -/
theorem coreRun_succ (M : Host.Core) (k : Nat) (s t : M.State) (h : M.step s = .next t) :
    M.run (k + 1) s = M.run k t := by
  simp only [Host.Core.run, h]

theorem run_succ (k : Nat) (s t : State) (h : step s = .next t) :
    Sys2Proof.core.run (k + 1) s = Sys2Proof.core.run k t :=
  coreRun_succ Sys2Proof.core k s t h

/-- What every step keeps, every run keeps. -/
theorem run_keeps (P : State → Prop) (hstep : ∀ s t, P s → step s = .next t → P t) (k : Nat) (s t : State)
    (hs : P s) (h : Sys2Proof.core.run k s = .next t) : P t := by
  induction k generalizing s with
  | zero => rw [run_zero] at h; cases h; exact hs
  | succ k ih =>
    obtain ⟨u, hu⟩ := step_total s
    rw [run_succ k s u hu] at h
    exact ih u (hstep s u hs hu) h

end Sys2Proof.Machine
end

