-- ==== Sys2Proof/Laws/Waveforms.lean ====
section
/-! SUPPORT. Everything the generators and the image assembly can answer (R101 to R104, R120): the length and the
elements of a block, and when each fails. -/

namespace Sys2Proof.Machine

@[simp] theorem tabulate_length (n : Nat) (e : Nat → Nat) : (tabulate n e).length = n := by simp [tabulate]

@[simp] theorem tabulate_getElem? (n : Nat) (e : Nat → Nat) (k : Nat) :
    (tabulate n e)[k]? = if k < n then some (toSample (e k)) else none := by
  simp only [tabulate, List.getElem?_map]
  split <;> simp [*]

theorem tabulate_getD (n : Nat) (e : Nat → Nat) (k : Nat) (h : k < n) (d : Sample) :
    (tabulate n e).getD k d = toSample (e k) := by
  rw [List.getD_eq_getElem?_getD, tabulate_getElem?, if_pos h, Option.getD_some]

theorem sineBlock_ok (t : TieRule) (n : Nat) :
    sineBlock t n = .ok (tabulate n fun k => quantize t (sineAmplitude n k)) := rfl

theorem squareBlock_ok (n : Nat) :
    squareBlock n = .ok (tabulate n fun k => if k < half n then Config.qmax else 0) := rfl

theorem sawBlock_cases (t : TieRule) (n : Nat) :
    (n < 2 ∧ sawBlock t n = .error .countTooSmall) ∨
    (2 ≤ n ∧ sawBlock t n = .ok (tabulate n fun k => roundRatio t (k * Config.qmax) (n - 1))) := by
  unfold sawBlock
  split
  · exact .inl ⟨‹_›, rfl⟩
  · exact .inr ⟨by omega, rfl⟩

theorem triBlock_cases (t : TieRule) (n : Nat) :
    (n < 4 ∧ triBlock t n = .error .countTooSmall) ∨
    (5 ≤ n ∧ n % 2 = 1 ∧ triBlock t n = .error .countOdd) ∨
    (4 ≤ n ∧ n % 2 = 0 ∧ triBlock t n = .ok (tabulate n (triValue t n))) := by
  unfold triBlock half
  split
  · exact .inl ⟨by omega, rfl⟩
  · split
    · exact .inr (.inl ⟨by omega, ‹_›, rfl⟩)
    · exact .inr (.inr ⟨by omega, by omega, rfl⟩)

/-- A block that is generated has exactly `n` samples (R34). -/
theorem gen_length (t : TieRule) (sh : Shape) (n : Nat) (xs : List Sample) (h : gen t sh n = .ok xs) :
    xs.length = n := by
  cases sh with
  | sine =>
    simp only [gen, sineBlock_ok, Except.ok.injEq] at h
    rw [← h, tabulate_length]
  | square =>
    simp only [gen, squareBlock_ok, Except.ok.injEq] at h
    rw [← h, tabulate_length]
  | sawtooth =>
    rcases sawBlock_cases t n with ⟨-, e⟩ | ⟨-, e⟩ <;> simp only [gen, e, reduceCtorEq, Except.ok.injEq] at h
    rw [← h, tabulate_length]
  | triangle =>
    rcases triBlock_cases t n with ⟨-, e⟩ | ⟨-, -, e⟩ | ⟨-, -, e⟩ <;>
      simp only [gen, e, reduceCtorEq, Except.ok.injEq] at h
    rw [← h, tabulate_length]

theorem genBlocks_length (t : TieRule) (n : Nat) (shs : List Shape) (xs : List Sample)
    (h : genBlocks t n shs = .ok xs) : xs.length = shs.length * n := by
  induction shs generalizing xs with
  | nil =>
    simp only [genBlocks, Except.ok.injEq] at h
    simp [← h]
  | cons sh rest ih =>
    simp only [genBlocks] at h
    split at h
    · exact absurd h (by simp)
    · rename_i b hb
      split at h
      · exact absurd h (by simp)
      · rename_i bs hbs
        simp only [Except.ok.injEq] at h
        rw [← h, List.length_append, gen_length t sh n b hb, ih bs hbs, List.length_cons]
        ring

/-- Everything `romImage` can answer (R120): the first failing precondition's cause, or the four blocks. -/
theorem romImage_cases (t : TieRule) (nb : BlockCount) (n : Nat) :
    (nb ≠ 4 ∧ romImage t nb n = .error .blockCount) ∨
    (nb = 4 ∧ n < 4 ∧ romImage t nb n = .error .countTooSmall) ∨
    (nb = 4 ∧ 5 ≤ n ∧ n % 2 = 1 ∧ romImage t nb n = .error .countOdd) ∨
    (nb = 4 ∧ 4 ≤ n ∧ n % 2 = 0 ∧ romImage t nb n = .ok (
      (tabulate n fun k => quantize t (sineAmplitude n k)) ++
      ((tabulate n fun k => if k < half n then Config.qmax else 0) ++
      ((tabulate n fun k => roundRatio t (k * Config.qmax) (n - 1)) ++
      ((tabulate n (triValue t n)) ++ []))))) := by
  by_cases hnb : nb = 4
  · right
    have hrom : romImage t nb n = genBlocks t n Config.shapes := if_neg (by simp [Config.numBlocks, hnb])
    rw [hrom]
    rcases sawBlock_cases t n with ⟨h1, e1⟩ | ⟨h1, e1⟩
    · exact .inl ⟨hnb, by omega, by simp [Config.shapes, genBlocks, gen, sineBlock_ok, squareBlock_ok, e1]⟩
    · rcases triBlock_cases t n with ⟨h2, e2⟩ | ⟨h2, h3, e2⟩ | ⟨h2, h3, e2⟩
      · exact .inl ⟨hnb, h2, by simp [Config.shapes, genBlocks, gen, sineBlock_ok, squareBlock_ok, e1, e2]⟩
      · exact .inr (.inl ⟨hnb, h2, h3, by simp [Config.shapes, genBlocks, gen, sineBlock_ok, squareBlock_ok, e1, e2]⟩)
      · exact .inr (.inr ⟨hnb, h2, h3, by simp [Config.shapes, genBlocks, gen, sineBlock_ok, squareBlock_ok, e1, e2]⟩)
  · exact .inl ⟨hnb, if_pos hnb⟩

theorem romImage_length (t : TieRule) (nb : BlockCount) (n : Nat) (xs : List Sample) (h : romImage t nb n = .ok xs) :
    xs.length = 4 * n := by
  rcases romImage_cases t nb n with ⟨-, e⟩ | ⟨-, -, e⟩ | ⟨-, -, -, e⟩ | ⟨-, -, -, e⟩ <;>
    simp only [e, reduceCtorEq, Except.ok.injEq] at h
  rw [← h]
  simp only [List.length_append, tabulate_length, List.length_nil]
  omega

/-- A successful command's result fits the result memory and the 18 bits of LEN (R22, R23). -/
theorem commandResult_length (i : Instr) (xs : List Sample) (h : commandResult i = .ok xs) : xs.length ≤ 262140 := by
  have hc : ∀ n : Count, countValue n ≤ 65535 := fun n => by have := n.isLt; simp only [countValue]; omega
  have hg : ∀ (sh : Shape) (n : Count), gen Config.tieRule sh (countValue n) = .ok xs → xs.length ≤ 262140 :=
    fun sh n hx => (gen_length _ _ _ _ hx).le.trans ((hc n).trans (by norm_num))
  cases i <;> simp only [commandResult] at h
  case genSine n => exact hg _ n h
  case genSquare n => exact hg _ n h
  case genSaw n => exact hg _ n h
  case genTri n => exact hg _ n h
  case buildRom nb bs =>
    have := romImage_length _ _ _ _ h
    have := hc bs
    omega

theorem wordResult_length (w : CmdWord) (xs : List Sample) (h : wordResult w = .ok xs) : xs.length ≤ 262140 := by
  unfold wordResult at h
  split at h
  · exact commandResult_length _ _ h
  · exact absurd h (by simp)

end Sys2Proof.Machine
end

