-- ==== Sys2Proof/Tests/Slice0.lean ====
section
/-! SUPPORT. Small tests of the model, each expected result taken from the spec (the source named in the comment), and
for every statement with hypotheses a concrete case that meets them. -/

open Sys2Proof Sys2Proof.Machine

namespace Sys2Proof.Tests

/-! ### Well-formedness (R68): an ill-formed command for each check -/

theorem test_wf_count_at_bound : (Source.gen .sawtooth 65535).wellFormed = true := by decide
theorem test_wf_count_refused : (Source.gen .sine 65536).wellFormed = false := by decide
theorem test_wf_block_count_refused : (Source.build (some 256) none).wellFormed = false := by decide
theorem test_wf_block_size_refused : (Source.build none (some 65536)).wellFormed = false := by decide
theorem test_wf_defaults : (Source.build none none).wellFormed = true := by decide

/-! ### Decoding: words written out bit by bit from R61 and R62, and the words of 95_test_vectors.md section 2.7 -/

theorem test_decode_sine_bits :
    decode 0b00000000000000000000000100000000#32 = .ok (.genSine 256) := by decide
theorem test_decode_square_bits :
    decode 0b00100000000000001111111111111111#32 = .ok (.genSquare 65535) := by decide
theorem test_decode_saw_bits :
    decode 0b01000000000000000000000000000111#32 = .ok (.genSaw 7) := by decide
theorem test_decode_tri_bits :
    decode 0b01100000000000000000000000001110#32 = .ok (.genTri 14) := by decide
theorem test_decode_build_bits :
    decode 0b10000000000001000000000100000000#32 = .ok (.buildRom 4 256) := by decide
theorem test_decode_illegal_op : decode 0xC0040100#32 = .error (.reservedOp 6) := by decide
theorem test_decode_illegal_g : decode 0x7FFFFFFF#32 = .error (.reservedBitsG 0x1FFF) := by decide
theorem test_decode_illegal_b : decode 0x9F040100#32 = .error (.reservedBitsB 0x1F) := by decide
theorem test_encode_build : encode (.buildRom 3 256) = 0x80030100#32 := by decide
theorem test_table_word : decodeTableWord 32 0x60000008 = some (.genTri 8) := by decide
theorem test_table_word_illegal : decodeTableWord 32 0xA0000000 = none := by decide

/-! ### The assembler's text (R68) -/

theorem test_asm_mnemonic : assembleLine "GEN_SAW 65535" = some 0x4000FFFF#32 := by decide
theorem test_asm_default : assembleLine "BUILD_ROM  -- the default image" = some 0x80040100#32 := by decide
theorem test_asm_call : assembleLine "build_rom(num_blocks=4, block_size=256)" = some 0x80040100#32 := by decide
theorem test_asm_call_order : assembleLine "build_rom(num_blocks=3, 256)" = none ∧
    assembleLine "build_rom(3, block_size=256)" = some 0x80030100#32 := by decide
theorem test_asm_call_size : assembleLine "build_rom(block_size=0x10)" = some 0x80040010#32 := by decide
theorem test_asm_refuses : assembleLine "GEN_SINE 65536" = none := by decide

/-! ### One step from reset, or from the state another command left (95_test_vectors.md sections 2.2 to 2.8) -/

/-- What a step leaves when the host issues `w` in state `s`; the state itself where the step stops. -/
def issued (w : Nat) (s : State) : State :=
  match step (s.withFetchWord 32 w) with
  | .next t => t
  | .fault _ => s
  | .refused _ => s

/-- The samples of the memory in address order. -/
def values (s : State) : List Nat := s.img.map fun c => c.2.toNat

/-- R84, at a count no command carries: sin(2π/12) = 1/2 has the sample 191, and its opposite the sample 64. -/
theorem test_sine_large_count : quantize .halfToEven (sineAmplitude 120000 10000) = 191 ∧
    quantize .halfToEven (sineAmplitude 120000 70000) = 64 := by decide +kernel

theorem test_sine_8 : values (issued 0x00000008 .reset) = [128, 218, 255, 218, 128, 37, 0, 37] := by decide +kernel
theorem test_sine_12 :
    values (issued 0x0000000C .reset) = [128, 191, 238, 255, 238, 191, 128, 64, 17, 0, 17, 64] := by decide +kernel
theorem test_square_5 : values (issued 0x20000005 .reset) = [255, 255, 0, 0, 0] := by decide +kernel
theorem test_saw_7_ties : values (issued 0x40000007 .reset) = [0, 42, 85, 128, 170, 212, 255] := by decide +kernel
theorem test_saw_1_fails :
    (issued 0x40000001 .reset).status = 0x0000002E ∧ (issued 0x40000001 .reset).img = [] := by decide +kernel
theorem test_tri_14_ties :
    values (issued 0x6000000E .reset) = [0, 42, 85, 128, 170, 212, 255, 255, 212, 170, 128, 85, 42, 0] := by decide +kernel
theorem test_tri_5_fails : (issued 0x60000005 .reset).status = 0x00000032 := by decide +kernel
theorem test_build_4_4 :
    values (issued 0x80040004 .reset) = [128, 255, 128, 0, 255, 255, 0, 0, 0, 85, 170, 255, 0, 255, 255, 0] ∧
      (issued 0x80040004 .reset).len = 16 := by decide +kernel
theorem test_build_priority : (issued 0x80030001 .reset).status = 0x0000002A := by decide +kernel
theorem test_illegal_word : (issued 0xA0000000 .reset).status = 0x00000026 := by decide +kernel
theorem test_success_keeps_eseen :
    (issued 0x40000002 (issued 0x40000001 .reset)).status = 0x00000021 := by decide +kernel
theorem test_shorter_result_leaves_no_tail :
    readImg 4 (issued 0x00000004 (issued 0x60000008 .reset)) = .fault (.unwrittenCell 4) := by decide +kernel
theorem test_read_below_len : readImg 1 (issued 0x40000003 .reset) = .sample 128 := by decide +kernel
theorem test_read_at_len : readImg 3 (issued 0x40000003 .reset) = .fault (.unwrittenCell 3) := by decide +kernel
theorem test_table_row_105_switch : quantize .halfToEven (sineAmplitude 256 13) = 167 ∧
    quantize .halfToEven (sineAmplitude 256 141) = 88 := by decide +kernel
theorem test_rounding_table : [roundRatio .halfToEven 1 2, roundRatio .halfToEven 3 2, roundRatio .halfToEven 5 2,
    roundRatio .halfToEven 255 6, roundRatio .halfAway 255 6, roundRatio .halfToEven 765 4] = [0, 2, 2, 42, 43, 191] := by
  decide

/-! ### A state with a result, a state after an error, and pending moves, for the witnesses -/

/-- GEN_SAW 3 committed from reset; the host will read the last sample, then the cell after it. -/
def withResult : State :=
  { img := [(0, 0), (1, 128), (2, 255)], len := 3, status := 1, moves := [.readImg 2, .readImg 3], answers := [] }

/-- A failed command, with a further word to issue. -/
def afterError : State :=
  { img := [], len := 0, status := 0x2E, moves := [.issue 0x40000002], answers := [] }

/-- A run whose first read faulted. -/
def afterFault : State :=
  { img := [], len := 0, status := 0, moves := [.readLen], answers := [.fault (.unwrittenCell 0)] }

theorem withResult_inv : EngineInv withResult where
  canonical := by decide
  written := fun a => by
    simp only [withResult, Memory.read]
    by_cases h0 : a = 0
    · simp [h0]
    by_cases h1 : a = 1
    · simp [h1]
    by_cases h2 : a = 2
    · simp [h2]
    simp [h0, h1, h2]
    omega
  lenRange := by decide
  reserved := by decide
  causeRange := by decide
  validNotErr := by decide
  errShown := by decide
  noErrNoCause := by decide
  idleIsReset := by decide

/-! ### Witnesses: for each statement with hypotheses, a case that meets them, with the boundary of each clause -/

theorem witness_EncodeInvertsDecode : decode 0x80FFFFFF#32 = .ok (.buildRom 255 65535) := by decide

theorem witness_DecodeAndExecFollowPseudocode :
    (wordBits 0x7FFF0000 31 31 = 0 ∧ wordBits 0x7FFF0000 28 16 ≠ 0) ∧
    (wordBits 0x6000FFFF 31 31 = 0 ∧ wordBits 0x6000FFFF 28 16 = 0) ∧
    (wordBits 0x81000000 31 29 = 4 ∧ wordBits 0x81000000 28 24 ≠ 0) ∧
    (wordBits 0x80FFFFFF 31 29 = 4 ∧ wordBits 0x80FFFFFF 28 24 = 0) ∧
    5 ≤ wordBits 0xA0000000 31 29 ∧ 5 ≤ wordBits 0xFFFFFFFF 31 29 ∧
    decode 0x6000FFFF#32 = .ok (.genTri 65535) ∧ decode 0xA0000000#32 = .error (.reservedOp 5) := by decide

theorem witness_OpcodeMapSelectsCommand :
    (0x6000FFFF#32 &&& opcodeMask (.genTri 0) = opcodeMatch (.genTri 0)) ∧
    (0x6000FFFF#32 &&& opcodeMask (.genTri 7) = opcodeMatch (.genTri 7)) := by decide

theorem witness_IllegalWordsRaiseCauseOne : decode 0x9FFFFFFF#32 = .error (.reservedBitsB 0x1F) := by decide

theorem witness_AssemblerExpandsAndRefuses :
    (255 ≤ 255 ∧ 65535 ≤ 65535) ∧ 255 < 256 ∧ 65535 < 65536 ∧
    (assemble (.build (some 255) (some 65535))).isSome = true := by decide

theorem witness_StepRunsDecodedCommand :
    afterError.moves = .issue 0x40000002#32 :: [] ∧ decode 0x40000002#32 = .ok (.genSaw 2) := by decide

theorem witness_HostMovesFollowTheTable_idle : State.reset.moves = [] := rfl
theorem witness_HostMovesFollowTheTable_reset :
    ({ afterError with moves := [.reset] } : State).moves = .reset :: [] := rfl
theorem witness_HostMovesFollowTheTable_issue : afterError.moves = .issue 0x40000002#32 :: [] := rfl
theorem witness_HostMovesFollowTheTable_readStatus :
    ({ afterError with moves := [.readStatus] } : State).moves = .readStatus :: [] := rfl
theorem witness_HostMovesFollowTheTable_readLen : afterFault.moves = .readLen :: [] := rfl
theorem witness_HostMovesFollowTheTable_readImg :
    withResult.moves = .readImg 2 :: [.readImg 3] ∧ (2 : ImgAddr) < withResult.len ∧
    Memory.read withResult.img (2 : ImgAddr).toNat = some 255 ∧ withResult.len ≤ (3 : ImgAddr) := by decide

theorem witness_GoneWrongIsPermanent :
    step afterFault = .next { afterFault with moves := [], answers := [.fault (.unwrittenCell 0), .len 0] } ∧
    goneWrong afterFault = true := ⟨rfl, rfl⟩

theorem witness_EveryStepKeepsInv :
    EngineInv withResult ∧ step withResult = .next { withResult with moves := [.readImg 3], answers := [.sample 255] } :=
  ⟨withResult_inv, rfl⟩

theorem witness_EveryRunFromResetKeepsInv :
    Sys2Proof.core.run 1 { State.reset with moves := [.issue 0xA0000000] } =
      .next (raiseDomainError .illegalCommand State.reset) := rfl

theorem witness_CanonicalMemoriesThatReadAlikeAreEqual :
    Memory.wf withResult.img = true ∧ ∀ a, Memory.read withResult.img a = Memory.read withResult.img a :=
  ⟨by decide, fun _ => rfl⟩

theorem witness_OnlyResetClearsEseen :
    ({ afterError with moves := [.reset] } : State).moves = .reset :: [] ∧
    step { afterError with moves := [.reset] } = .next State.reset ∧
    statusEseen afterError.status = true ∧ statusEseen State.reset.status = false := ⟨rfl, rfl, by decide, by decide⟩

theorem witness_StatusWordAfterEveryMove_error :
    issueWord 0xA0000000 withResult = .next (raiseDomainError .illegalCommand withResult) ∧
    statusErr (raiseDomainError .illegalCommand withResult).status = true := ⟨rfl, by decide⟩
theorem witness_StatusWordAfterEveryMove_success :
    issueWord 0x20000000 afterError = .next (commit [] afterError) ∧
    statusErr (commit [] afterError).status = false ∧ statusValid (commit [] afterError).status = true :=
  ⟨rfl, by decide, by decide⟩
theorem witness_StatusWordAfterEveryMove_reset :
    perform .reset { afterError with moves := [] } = .next State.reset ∧
    Sys2Proof.core.run 1 { State.reset with moves := [.issue 0xA0000000] } =
      .next (raiseDomainError .illegalCommand State.reset) := ⟨rfl, rfl⟩
theorem witness_StatusWordAfterEveryMove_read :
    Move.isRead .readLen = true ∧ perform .readLen withResult = .next { withResult with answers := [.len 3] } :=
  ⟨rfl, rfl⟩

theorem witness_LenAfterEveryCommand_error :
    exec (.genSaw 1) withResult = .next (raiseDomainError .countTooSmall withResult) ∧
    statusErr (raiseDomainError .countTooSmall withResult).status = true := ⟨rfl, by decide⟩
theorem witness_LenAfterEveryCommand_sine :
    exec (.genSine 0) withResult = .next (commit [] withResult) ∧
    statusValid (commit [] withResult).status = true := ⟨rfl, by decide⟩
theorem witness_LenAfterEveryCommand_square :
    exec (.genSquare 1) afterError = .next (commit [0] afterError) ∧
    statusValid (commit [0] afterError).status = true := ⟨rfl, by decide⟩
theorem witness_LenAfterEveryCommand_saw :
    exec (.genSaw 2) afterError = .next (commit [0, 255] afterError) ∧
    statusValid (commit [0, 255] afterError).status = true := ⟨rfl, by decide⟩
theorem witness_LenAfterEveryCommand_tri :
    exec (.genTri 4) afterError = .next (commit [0, 255, 255, 0] afterError) ∧
    statusValid (commit [0, 255, 255, 0] afterError).status = true :=
  ⟨exec_ok _ _ _ (by decide +kernel), by decide⟩
theorem witness_LenAfterEveryCommand_build : ∃ xs, exec (.buildRom 4 4) afterError = .next (commit xs afterError) ∧
    statusValid (commit xs afterError).status = true := by
  have h : commandResult (.buildRom 4 4) =
      .ok [128, 255, 128, 0, 255, 255, 0, 0, 0, 85, 170, 255, 0, 255, 255, 0] := by decide +kernel
  exact ⟨_, exec_ok _ _ _ h, statusCommit_valid _⟩

theorem witness_LenAfterEveryCommand_moves :
    perform .reset { afterError with moves := [] } = .next State.reset ∧ Move.isRead .readLen = true ∧
    perform .readLen withResult = .next { withResult with answers := [.len 3] } := ⟨rfl, rfl, rfl⟩

theorem witness_CommitLeavesWholeResult_counts :
    commandResult (Instr.ofShape .sawtooth 2) = .ok [0, 255] ∧
    commandResult (.buildRom 4 4) = .ok [128, 255, 128, 0, 255, 255, 0, 0, 0, 85, 170, 255, 0, 255, 255, 0] := by
  decide +kernel
theorem witness_CommitLeavesWholeResult :
    (List.replicate 262140 (0 : Sample)).length ≤ 262140 ∧
    issueWord 0x20000000 afterError = .next (commit [] afterError) ∧
    issueWord 0x20000000 withResult = .next (commit [] withResult) :=
  ⟨by rw [List.length_replicate], rfl, rfl⟩

theorem witness_CausesAndWhoRaisesThem :
    issueWord 0x60000005 withResult = .next (raiseDomainError .countOdd withResult) ∧
    wordResult 0x60000005 = .error .countOdd ∧
    issueWord 0x20000000 afterError = .next (commit [] afterError) ∧ wordResult 0x20000000 = .ok [] ∧
    perform (.readImg 3) withResult = .next { withResult with answers := [.fault (.unwrittenCell 3)] } :=
  ⟨rfl, rfl, rfl, rfl, rfl⟩

theorem witness_CausePriority :
    decode 0x81040100#32 = .error (.reservedBitsB 1) ∧ (3 : BlockCount) ≠ 4 ∧ (5 : BlockCount) ≠ 4 ∧
    gen Config.tieRule .sawtooth (1 : Count).toNat = .error .countTooSmall ∧
    (∀ sh' : Shape, sh'.code < Shape.sawtooth.code → ∃ xs, gen Config.tieRule sh' (1 : Count).toNat = .ok xs) ∧
    (3 : Count).toNat < 4 := by
  refine ⟨by decide, by decide, by decide, rfl, fun sh' h => ?_, by decide⟩
  cases sh' with
  | sine => exact ⟨_, rfl⟩
  | square => exact ⟨_, rfl⟩
  | sawtooth => exact absurd h (by decide)
  | triangle => exact absurd h (by decide)
theorem witness_CausePriority_triangle :
    gen Config.tieRule .triangle (5 : Count).toNat = .error .countOdd ∧
    (∀ sh' : Shape, sh'.code < Shape.triangle.code → ∃ xs, gen Config.tieRule sh' (5 : Count).toNat = .ok xs) := by
  refine ⟨rfl, fun sh' h => ?_⟩
  cases sh' with
  | sine => exact ⟨_, rfl⟩
  | square => exact ⟨_, rfl⟩
  | sawtooth => exact ⟨_, rfl⟩
  | triangle => exact absurd h (by decide)

theorem witness_RecoveryAfterAnError :
    wordResult 0x20000000 = .ok [] ∧ wordResult 0x40000001 = .error .countTooSmall ∧
    perform .reset { afterError with moves := [] } = .next State.reset ∧
    statusEseen afterError.status = true ∧ statusEseen State.reset.status = false :=
  ⟨rfl, rfl, rfl, by decide, by decide⟩

theorem witness_RatioRoundingIsNearestEven :
    0 < 4 ∧ 2 * (765 % 4) < 4 ∧ 4 < 2 * (255 % 4) ∧ 2 * (255 % 6) = 6 := by decide

theorem witness_RoundingIsMonotoneAndUnique :
    (0 < 4 ∧ 0 < 6 ∧ 1 * 6 ≤ 15 * 4) ∧ IsRne (((3 : Nat) : ℝ) / (4 : Nat)) 1 :=
  ⟨by decide, isRne_of_lt _ _ (by norm_num) (by norm_num)⟩

theorem witness_TieRulesDifferOnEvenTies : 0 < 6 ∧ 2 * (255 % 6) = 6 ∧ 255 / 6 % 2 = 0 := by decide

theorem witness_RoundedValuesAreSamples_rne :
    (0 : ℝ) ≤ 255 ∧ (255 : ℝ) ≤ 255 ∧ IsRne (255 : ℝ) 255 ∧ (-1 : ℝ) ≤ 1 ∧ IsRne (255 * (((1 : ℝ) + 1) / 2)) 255 :=
  ⟨by norm_num, by norm_num, isRne_of_lt _ _ (by norm_num) (by norm_num), by norm_num,
    isRne_of_lt _ _ (by norm_num) (by norm_num)⟩
theorem witness_RoundedValuesAreSamples_counts :
    (0 < 1 ∧ 1 ≤ 1) ∧ 65534 < 65535 ∧ (4 ≤ 4 ∧ 4 % 2 = 0 ∧ 3 < 4) := by decide

theorem witness_HalfLengthIsTheUpperBits : 65534 % 2 = 0 ∧ 65535 % 2 = 1 := by decide

theorem witness_QuantizeIsNormaliseScaleRound : 0 < (⟨1, 1⟩ : Frac).den ∧ (⟨1, 1⟩ : Frac).num ≤ (⟨1, 1⟩ : Frac).den := by
  decide

theorem witness_OppositeAmplitudesMirror :
    (0 < (⟨1, 2⟩ : Frac).den ∧ (⟨1, 2⟩ : Frac).num ≤ (⟨1, 2⟩ : Frac).den) ∧
    2 * (255 * (normalise ⟨false, ⟨1, 2⟩⟩).num % (normalise ⟨false, ⟨1, 2⟩⟩).den) ≠ (normalise ⟨false, ⟨1, 2⟩⟩).den ∧
    (⟨0, 1⟩ : Frac).num = 0 := by decide

theorem witness_SineSampleIsExactlyRounded : 65535 < 65536 := by decide
theorem witness_SineBlockSymmetries :
    (0 < 65535 ∧ 65535 < 65536 ∧ 2 * 65535 ≠ 65536) ∧ (8 % 2 = 0 ∧ 0 < 8 ∧ 4 ≤ 8 / 2) := by decide
theorem witness_SineBlockCorners : 0 < 4 ∧ 4 % 2 = 0 ∧ 4 % 4 = 0 := by decide
theorem witness_GenSawLeavesRoundedRamp : 2 ≤ (2 : Count).toNat := by decide
theorem witness_GenSawTooSmallFails : (1 : Count).toNat < 2 := by decide
theorem witness_SawRisesFromZeroToFull : 2 ≤ 2 ∧ 0 ≤ 1 ∧ 1 < 2 := by decide
theorem witness_GenTriLeavesRiseAndFall :
    (4 ≤ (4 : Count).toNat ∧ (4 : Count).toNat % 2 = 0) ∧ (1 < (4 : Count).toNat / 2) ∧ (4 : Count).toNat / 2 ≤ 2 := by
  decide
theorem witness_GenTriRejectsCounts :
    (3 : Count).toNat < 4 ∧ 5 ≤ (5 : Count).toNat ∧ (5 : Count).toNat % 2 = 1 := by decide
theorem witness_TriangleMirrorsItsRisingSaw : 4 ≤ 4 ∧ 4 % 2 = 0 ∧ 3 < 4 ∧ 1 < 4 / 2 := by decide
theorem witness_DefaultTriangleClosedForm : 255 < 256 := by decide
theorem witness_GeneratorOutcomesByCount :
    (5 ≤ 5 ∧ 5 % 2 = 1 ∧ Shape.sawtooth ≠ Shape.triangle) ∧ (6 ≤ 6 ∧ 6 % 2 = 0) := by decide
theorem witness_BuildRomOutcomes :
    (3 : BlockCount) ≠ 4 ∧ (3 : Count).toNat < 4 ∧ (5 ≤ (5 : Count).toNat ∧ (5 : Count).toNat % 2 = 1) ∧
    (4 ≤ (65534 : Count).toNat ∧ (65534 : Count).toNat % 2 = 0) := by decide
theorem witness_RomImageBlockLookup :
    4 ≤ (4 : Count).toNat ∧ (4 : Count).toNat % 2 = 0 ∧ 3 < (4 : Count).toNat ∧ 15 < 4 * (4 : Count).toNat ∧
    4 * (4 : Count).toNat ≤ 16 := by decide
theorem witness_RomImageAddressDecode : ∃ t, exec (.buildRom 4 256) withResult = .next t ∧
    statusValid t.status = true ∧ 1023 < 4 * (256 : Count).toNat ∧ 255 < 256 := by
  rcases romImage_cases Config.tieRule 4 256 with ⟨h, -⟩ | ⟨-, h, -⟩ | ⟨-, -, h, -⟩ | ⟨-, -, -, e⟩
  · exact absurd rfl h
  · exact absurd h (by decide)
  · exact absurd h (by decide)
  · refine ⟨_, exec_eq _ _, ?_, by decide, by decide⟩
    have he : commandResult (.buildRom 4 256) = romImage Config.tieRule 4 256 := by simp only [commandResult]; rfl
    rw [he, e]
    exact statusCommit_valid _
theorem witness_DefaultImageContents :
    (256 ≤ 383 ∧ 383 ≤ 383) ∧ (384 ≤ 511 ∧ 511 ≤ 511) ∧ 255 < 256 := by decide

theorem witness_ReadImgBelowLenElseFault :
    (2 : ImgAddr) < withResult.len ∧ Memory.read withResult.img (2 : ImgAddr).toNat = some 255 ∧ EngineInv withResult ∧
    withResult.len ≤ (3 : ImgAddr) := ⟨by decide, by decide, withResult_inv, by decide⟩

theorem witness_ResetFromEveryState :
    perform (.issue 0x40000002#32) afterError = .next (commit [0, 255] afterError) ∧
    Move.issue 0x40000002#32 ≠ .reset ∧ statusEseen afterError.status = true :=
  ⟨rfl, by decide, by decide⟩

/-- The register space of R30: what each number reads and writes. -/
theorem test_register_space :
    registerRead 0 = none ∧ registerRead 1 = some .readStatus ∧ registerRead 2 = some .readLen ∧ registerRead 3 = none ∧
    registerWrite 0 0x80040100 = some (.issue 0x80040100) ∧ registerWrite 1 0 = none ∧ registerWrite 2 0 = none := by
  decide

theorem reset_inv : EngineInv State.reset where
  canonical := by decide
  written := fun a => by simp
  lenRange := by decide
  reserved := by decide
  causeRange := by decide
  validNotErr := by decide
  errShown := by decide
  noErrNoCause := by decide
  idleIsReset := by decide

theorem witness_AfterResetNothingIsReadable :
    (EngineInv State.reset ∧ statusValid State.reset.status = false ∧ statusErr State.reset.status = false) ∧
    (∀ m ∈ [Move.issue 0x40000001#32], ∀ w, m = .issue w → ∃ c, wordResult w = .error c) ∧
    Sys2Proof.core.run 1 { resetEngine withResult with moves := [.issue 0x40000001] } =
      .next (raiseDomainError .countTooSmall { resetEngine withResult with moves := [] }) := by
  refine ⟨⟨reset_inv, by decide, by decide⟩, fun m hm w hw => ?_, rfl⟩
  rw [List.mem_singleton] at hm
  rw [hm, Move.issue.injEq] at hw
  exact ⟨.countTooSmall, by rw [← hw]; rfl⟩

theorem witness_SamplesKeepTheirValue :
    (∀ m ∈ [Move.readImg 2, Move.readLen], m.isRead = true) ∧
    Sys2Proof.core.run 2 { withResult with moves := [.readImg 2, .readLen] } =
      .next { withResult with moves := [], answers := [.sample 255, .len 3] } := ⟨by decide, rfl⟩

theorem witness_ShorterResultLeavesNoTail :
    issueWord 0x40000002 withResult = .next (commit [0, 255] withResult) ∧
    (commit [0, 255] withResult).len ≤ (2 : ImgAddr) ∧ (1 : ImgAddr) < (commit [0, 255] withResult).len :=
  ⟨rfl, by decide, by decide⟩

end Sys2Proof.Tests
end

section
/-! SUPPORT. What a command, a reset and a read leave of LEN and STATUS (R23, R24), and what the reset state meets
(R32): each rule once, from the laws of `finish` and of the moves. -/

namespace Sys2Proof.Machine

/-! ### The two ends of a command -/

/-- A state that `finish` left is what `Commit` or the error entry leaves (R69). -/
theorem next_finish_cases (r : Except Cause (List Sample)) (s t : State)
    (h : (.next (finish r s) : Host.Outcome State Fault Refusal) = .next t) :
    (∃ xs, r = .ok xs ∧ t = commit xs s) ∨ (∃ c, r = .error c ∧ t = raiseDomainError c s) := by
  cases h
  exact finish_cases r s

/-- A word ends in `Commit` of its result or in the error entry with its cause (R69). -/
theorem issueWord_cases (w : CmdWord) (s t : State) (h : issueWord w s = .next t) :
    (∃ xs, wordResult w = .ok xs ∧ t = commit xs s) ∨ (∃ c, wordResult w = .error c ∧ t = raiseDomainError c s) :=
  next_finish_cases _ s t (issueWord_eq w s ▸ h)

/-- A command ends in `Commit` of its result or in the error entry with its cause (R69). -/
theorem exec_cases (i : Instr) (s t : State) (h : exec i s = .next t) :
    (∃ xs, commandResult i = .ok xs ∧ t = commit xs s) ∨ (∃ c, commandResult i = .error c ∧ t = raiseDomainError c s) :=
  next_finish_cases _ s t (exec_eq i s ▸ h)

/-- A result in the range of R23 is not cut by the 18 bits of LEN. -/
theorem commit_len_toNat (xs : List Sample) (s : State) (h : xs.length ≤ 262140) :
    (commit xs s).len.toNat = xs.length := by
  rw [commit_len, BitVec.toNat_ofNat]
  omega

/-- A command that ends with VALID 1 has committed its result, and LEN is that result's length (R23, R24). -/
theorem exec_valid_len (i : Instr) (s t : State) (h : exec i s = .next t) (hv : statusValid t.status = true) :
    ∃ xs, commandResult i = .ok xs ∧ t.len.toNat = xs.length := by
  obtain ⟨xs, hr, rfl⟩ | ⟨c, -, rfl⟩ := exec_cases i s t h
  · exact ⟨xs, hr, commit_len_toNat xs s (commandResult_length i xs hr)⟩
  · simp at hv

/-- A command that ends with ERR 1 has taken the error entry, which leaves LEN 0 (R152). -/
theorem exec_err_len (i : Instr) (s t : State) (h : exec i s = .next t) (he : statusErr t.status = true) :
    t.len = 0 := by
  obtain ⟨xs, -, rfl⟩ | ⟨c, -, rfl⟩ := exec_cases i s t h
  · simp at he
  · rfl

/-- LEN stays in the range of R23 after every command. -/
theorem exec_len_le (i : Instr) (s t : State) (h : exec i s = .next t) : t.len.toNat ≤ 262140 := by
  obtain ⟨xs, hr, rfl⟩ | ⟨c, -, rfl⟩ := exec_cases i s t h
  · have hx := commandResult_length i xs hr
    rw [commit_len_toNat xs s hx]
    exact hx
  · simp

/-- A successful generator command leaves its count in LEN (R23). -/
theorem exec_ofShape_valid_len (sh : Shape) (n : Count) (s t : State) (h : exec (Instr.ofShape sh n) s = .next t)
    (hv : statusValid t.status = true) : t.len.toNat = n.toNat := by
  obtain ⟨xs, hr, hl⟩ := exec_valid_len _ s t h hv
  have hg : gen Config.tieRule sh (countValue n) = .ok xs := by cases sh <;> exact hr
  rw [hl]
  exact gen_length _ _ _ _ hg

/-! ### Resets and reads -/

theorem perform_reset (s t : State) (h : perform .reset s = .next t) : t = resetEngine s := by
  cases h
  rfl

/-- A read only tells the host an answer (R45). -/
theorem perform_read (s t : State) (m : Move) (hm : m.isRead = true) (h : perform m s = .next t) :
    ∃ r, t = tell r s := by
  obtain ⟨rfl, -⟩ | ⟨w, rfl, -⟩ | ⟨-, ht⟩ := perform_cases m s t h
  · cases hm
  · cases hm
  · exact ht

/-- LEN as the host reads it: the 18 bits of the register below zeros (R23, R123). -/
theorem readLen_bits (s : State) : ∃ v : RegWord, readLen s = .len v ∧ wordBits v 17 0 = s.len.toNat ∧
    wordBits v 31 18 = 0 := by
  have hlt := s.len.isLt
  have hv : (s.len.setWidth 32).toNat = s.len.toNat := by
    rw [BitVec.toNat_setWidth]
    omega
  refine ⟨s.len.setWidth 32, rfl, ?_, ?_⟩ <;> rw [wordBits, hv] <;> omega

/-! ### The STATUS word -/

/-- The reserved bits after a command (R24: never written). -/
@[simp] theorem finish_reserved (r : Except Cause (List Sample)) (s : State) :
    statusReserved (finish r s).status = statusReserved s.status := by
  obtain ⟨xs, -, e⟩ | ⟨c, -, e⟩ := finish_cases r s <;> simp [e]

theorem statusReserved_zero : statusReserved 0 = 0 := by decide

/-- No step sets a reserved bit (R24). -/
theorem step_keeps_reserved_zero (s t : State) (hs : statusReserved s.status = 0) (h : step s = .next t) :
    statusReserved t.status = 0 := by
  obtain ⟨-, rfl⟩ | ⟨m, rest, -, hp⟩ := step_cases s t h
  · exact hs
  · obtain ⟨-, rfl⟩ | ⟨w, -, rfl⟩ | ⟨-, r, rfl⟩ := perform_cases m _ t hp
    · exact statusReserved_zero
    · rw [finish_reserved]; exact hs
    · exact hs

theorem statusValid_toNat (w : RegWord) : (statusValid w).toNat = w.toNat % 2 := by
  rw [statusValid, BitVec.getLsbD, Nat.toNat_testBit, pow_zero, Nat.div_one]

theorem statusErr_toNat (w : RegWord) : (statusErr w).toNat = w.toNat / 2 % 2 := by
  rw [statusErr, BitVec.getLsbD, Nat.toNat_testBit, pow_one]

theorem statusCause_toNat (w : RegWord) : (statusCause w).toNat = w.toNat / 2 ^ 2 % 2 ^ 3 := by
  rw [statusCause, BitVec.extractLsb'_toNat, Nat.shiftRight_eq_div_pow]

theorem statusEseen_toNat (w : RegWord) : (statusEseen w).toNat = w.toNat / 2 ^ 5 % 2 := by
  rw [statusEseen, BitVec.getLsbD, Nat.toNat_testBit]

theorem statusReserved_toNat (w : RegWord) : (statusReserved w).toNat = w.toNat / 2 ^ 6 % 2 ^ 26 := by
  rw [statusReserved, BitVec.extractLsb'_toNat, Nat.shiftRight_eq_div_pow]

/-- The five fields stand side by side in the word, VALID lowest (R24). -/
theorem status_toNat (w : RegWord) : w.toNat = (statusValid w).toNat + 2 * (statusErr w).toNat +
    4 * (statusCause w).toNat + 32 * (statusEseen w).toNat + 64 * (statusReserved w).toNat := by
  have hw := w.isLt
  rw [statusValid_toNat, statusErr_toNat, statusCause_toNat, statusEseen_toNat, statusReserved_toNat]
  omega

/-- What R24 says of STATUS, with the LEN and IMG it speaks of, in the state `t` that issuing `w` in `s` leaves. -/
structure StatusAfterWord (w : CmdWord) (s t : State) : Prop where
  validNotErr : statusValid t.status = !statusErr t.status
  causeRange : (statusCause t.status).toNat ≤ 4
  errShown : statusErr t.status = true → statusEseen t.status = true ∧ statusCause t.status ≠ 0 ∧ t.len = 0 ∧
    ∃ c, wordResult w = .error c ∧ statusCause t.status = c.code
  noErr : statusErr t.status = false → statusCause t.status = 0 ∧ statusEseen t.status = statusEseen s.status
  wholeResult : statusValid t.status = true → ∃ xs : List Sample, wordResult w = .ok xs ∧ xs.length = t.len.toNat ∧
    ∀ a, Memory.read t.img a = xs[a]?
  reserved : statusReserved t.status = statusReserved s.status

theorem commit_statusAfterWord (w : CmdWord) (s : State) (xs : List Sample) (h : wordResult w = .ok xs) :
    StatusAfterWord w s (commit xs s) where
  validNotErr := by simp
  causeRange := by simp
  errShown := by simp
  noErr := by simp
  wholeResult _ := ⟨xs, h, (commit_len_toNat xs s (wordResult_length w xs h)).symm, ofSamples_read xs⟩
  reserved := by simp

theorem raise_statusAfterWord (w : CmdWord) (s : State) (c : Cause) (h : wordResult w = .error c) :
    StatusAfterWord w s (raiseDomainError c s) where
  validNotErr := by simp
  causeRange := by simpa using (cause_code_bounds c).2
  errShown _ := ⟨statusError_eseen .., by simpa using (cause_code_bounds c).1, rfl, c, h, statusError_cause ..⟩
  noErr := by simp
  wholeResult := by simp
  reserved := by simp

theorem issueWord_statusAfterWord (w : CmdWord) (s t : State) (h : issueWord w s = .next t) :
    StatusAfterWord w s t := by
  obtain ⟨xs, hr, rfl⟩ | ⟨c, hr, rfl⟩ := issueWord_cases w s t h
  · exact commit_statusAfterWord w s xs hr
  · exact raise_statusAfterWord w s c hr

/-! ### The reset engine -/

/-- A reset from any state leaves the engine in its invariant (R32, R180). -/
theorem resetEngine_inv (s : State) : EngineInv (resetEngine s) where
  canonical := resetEngine_wf s
  written a := by simp
  lenRange := by simp
  reserved := statusReserved_zero
  causeRange := by rw [resetEngine_status]; decide
  validNotErr := by rw [resetEngine_status]; decide
  errShown := by rw [resetEngine_status, resetEngine_len]; decide
  noErrNoCause := by rw [resetEngine_status]; decide
  idleIsReset := by rw [resetEngine_status, resetEngine_len]; decide

end Sys2Proof.Machine
end

section
/-! PROOFS. The statements of 10_state.md. -/

open Sys2Proof Sys2Proof.Machine

/-- Settles O19: every word ends in `Commit` or in the error entry, and no step sets a reserved bit. -/
theorem statusWordAfterEveryMove : Obligations.StatusWordAfterEveryMove := by
  refine ⟨fun w s t h => ?_, fun s t h => ?_, fun s t m hm h => ?_, fun moves k t h => ?_, status_toNat⟩
  · obtain ⟨hvalid, hcause, herr, hnoErr, hwhole, hreserved⟩ := issueWord_statusAfterWord w s t h
    exact ⟨hvalid, hcause, herr, hnoErr, hwhole, hreserved⟩
  · rw [perform_reset s t h, resetEngine_status]
  · obtain ⟨r, rfl⟩ := perform_read s t m hm h
    rfl
  · refine run_keeps (fun u => statusReserved u.status = 0) step_keeps_reserved_zero k _ t ?_ h
    exact statusReserved_zero

/-- Settles O20: LEN is the length of the result that was committed, or 0 after the error entry. -/
theorem lenAfterEveryCommand : Obligations.LenAfterEveryCommand := by
  refine ⟨exec_err_len, fun n s t h hv => ?_, fun nb bs s t h hv => ?_, exec_len_le, readLen_bits, fun s t h => ?_,
    fun s t m hm h => ?_⟩
  · obtain h | h | h | h := h
    · exact exec_ofShape_valid_len .sine n s t h hv
    · exact exec_ofShape_valid_len .square n s t h hv
    · exact exec_ofShape_valid_len .sawtooth n s t h hv
    · exact exec_ofShape_valid_len .triangle n s t h hv
  · obtain ⟨xs, hr, hl⟩ := exec_valid_len _ s t h hv
    rw [hl]
    exact romImage_length _ _ _ _ hr
  · rw [perform_reset s t h, resetEngine_len]
  · obtain ⟨r, rfl⟩ := perform_read s t m hm h
    rfl

/-- Settles O15: the reset state is what a reset of the engine leaves of itself. -/
theorem resetMeetsInv : Obligations.ResetMeetsInv :=
  ⟨resetEngine_inv State.reset, reset_img, fun a => by rw [reset_img, empty_read], reset_len, reset_status⟩
end

section
/-! SUPPORT. The legal words are the encodings of the commands (R69), a row of the opcode map takes a word exactly when
the word is the encoding of the row's command with the word's own low bits as operands (R63, R64), and what an illegal
word is and does (R65). -/

namespace Sys2Proof

/-! ### The legal words -/

theorem decode_encodeG (s : Shape) (n : Count) : decode (encodeG s n) = .ok (Instr.ofShape s n) := by
  have hn := n.isLt
  have hs := s.code.isLt
  have hw := encodeG_toNat s n
  obtain ⟨-, hrsv, -⟩ | ⟨-, -, h⟩ | ⟨hop, -⟩ | ⟨hop, -⟩ | ⟨hop, -⟩ := decode_cases (encodeG s n)
  · omega
  · have hshape : shapeField (encodeG s n) = s.code :=
      BitVec.eq_of_toNat_eq (by rw [shapeField_toNat]; omega)
    have hcount : countField (encodeG s n) = n := BitVec.eq_of_toNat_eq (by rw [countField_toNat]; omega)
    rw [h, hshape, hcount, shape_ofCode_code]
  · omega
  · omega
  · omega

theorem decode_encodeB (nb : BlockCount) (bs : Count) : decode (encodeB nb bs) = .ok (.buildRom nb bs) := by
  have hnb := nb.isLt
  have hbs := bs.isLt
  have hw := encodeB_toNat nb bs
  obtain ⟨hop, -⟩ | ⟨hop, -⟩ | ⟨-, hrsv, -⟩ | ⟨-, -, h⟩ | ⟨hop, -⟩ := decode_cases (encodeB nb bs)
  · omega
  · omega
  · omega
  · have hblocks : nbField (encodeB nb bs) = nb := BitVec.eq_of_toNat_eq (by rw [nbField_toNat]; omega)
    have hcount : countField (encodeB nb bs) = bs := BitVec.eq_of_toNat_eq (by rw [countField_toNat]; omega)
    rw [h, hblocks, hcount]
  · omega

/-- `Decode(Enc(c)) = c` (R69). -/
theorem decode_encode (i : Instr) : decode (encode i) = .ok i := by
  cases i with
  | genSine n => exact decode_encodeG .sine n
  | genSquare n => exact decode_encodeG .square n
  | genSaw n => exact decode_encodeG .sawtooth n
  | genTri n => exact decode_encodeG .triangle n
  | buildRom nb bs => exact decode_encodeB nb bs

/-- The decoder drops no bit of a legal word (R69). -/
theorem encode_of_decode (w : CmdWord) (i : Instr) (h : decode w = .ok i) : encode i = w := by
  have hlt := w.isLt
  obtain ⟨-, -, e⟩ | ⟨hop, hrsv, e⟩ | ⟨-, -, e⟩ | ⟨hop, hrsv, e⟩ | ⟨-, e⟩ := decode_cases w <;>
    rw [e] at h <;> cases h
  · refine BitVec.eq_of_toNat_eq ?_
    rw [encode_ofShape, encodeG_toNat, shape_code_ofCode, shapeField_toNat, countField_toNat]
    omega
  · refine BitVec.eq_of_toNat_eq ?_
    rw [encode, encodeB_toNat, nbField_toNat, countField_toNat]
    omega

/-- A word spells the command whose encoding it is, and no other (R69). -/
theorem decode_eq_ok_iff (w : CmdWord) (i : Instr) : decode w = .ok i ↔ encode i = w :=
  ⟨encode_of_decode w i, fun h => h ▸ decode_encode i⟩

/-! ### The rows of the opcode map -/

/-- The command of the row of `i` with the operands that stand in the low bits of `w` (R63, R64). -/
def Instr.withOperandsOf (w : CmdWord) : Instr → Instr
  | .genSine _ => .genSine (w.setWidth 16)
  | .genSquare _ => .genSquare (w.setWidth 16)
  | .genSaw _ => .genSaw (w.setWidth 16)
  | .genTri _ => .genTri (w.setWidth 16)
  | .buildRom _ _ => .buildRom ((w >>> 16).setWidth 8) (w.setWidth 16)

@[simp] theorem opcodeMatch_withOperandsOf (w : CmdWord) (i : Instr) :
    opcodeMatch (i.withOperandsOf w) = opcodeMatch i := by cases i <;> rfl

/-- A generator's row fixes the bits above the count: the other bits of the word are the count. -/
theorem and_maskG_eq_iff (w m : CmdWord) (s : Shape) (hm : m.toNat = s.code.toNat * 2 ^ 29) :
    w &&& 0xFFFF0000 = m ↔ encodeG s (w.setWidth 16) = w := by
  rw [← BitVec.toNat_inj, ← BitVec.toNat_inj, Laws.OpcodeRow.masked _ _ 16 Laws.OpcodeRow.maskG, hm, encodeG_toNat,
    BitVec.toNat_setWidth]
  omega

/-- The build command's row fixes the bits above `nb`: the other bits of the word are `nb` and `bs`. -/
theorem and_maskB_eq_iff (w : CmdWord) :
    w &&& 0xFF000000 = 0x80000000 ↔ encodeB ((w >>> 16).setWidth 8) (w.setWidth 16) = w := by
  have hm : (0x80000000 : CmdWord).toNat = 2 ^ 31 := rfl
  rw [← BitVec.toNat_inj, ← BitVec.toNat_inj, Laws.OpcodeRow.masked _ _ 24 Laws.OpcodeRow.maskB, hm, encodeB_toNat,
    BitVec.toNat_setWidth, BitVec.toNat_setWidth, BitVec.toNat_ushiftRight, Nat.shiftRight_eq_div_pow]
  omega

/-- R63: a word agrees with a row under its mask exactly when it spells the row's command, with its own low bits as
operands. -/
theorem matches_row_iff_decode (w : CmdWord) (i : Instr) :
    w &&& opcodeMask i = opcodeMatch i ↔ decode w = .ok (i.withOperandsOf w) := by
  rw [decode_eq_ok_iff]
  cases i with
  | genSine n => exact and_maskG_eq_iff w _ .sine rfl
  | genSquare n => exact and_maskG_eq_iff w _ .square rfl
  | genSaw n => exact and_maskG_eq_iff w _ .sawtooth rfl
  | genTri n => exact and_maskG_eq_iff w _ .triangle rfl
  | buildRom nb bs => exact and_maskB_eq_iff w

theorem encode_matches_row (i : Instr) : encode i &&& opcodeMask i = opcodeMatch i := by
  cases i with
  | genSine n => exact (Laws.OpcodeRow.genSine n).1
  | genSquare n => exact (Laws.OpcodeRow.genSquare n).1
  | genSaw n => exact (Laws.OpcodeRow.genSaw n).1
  | genTri n => exact (Laws.OpcodeRow.genTri n).1
  | buildRom nb bs => exact (Laws.OpcodeRow.buildRom nb bs).1

/-- The rows are disjoint (R63): the decoder has one answer. -/
theorem opcodeMatch_eq_of_matches (w : CmdWord) (i j : Instr) (hi : w &&& opcodeMask i = opcodeMatch i)
    (hj : w &&& opcodeMask j = opcodeMatch j) : opcodeMatch i = opcodeMatch j := by
  rw [matches_row_iff_decode] at hi hj
  have h : i.withOperandsOf w = j.withOperandsOf w := Except.ok.inj (hi.symm.trans hj)
  rw [← opcodeMatch_withOperandsOf w i, h, opcodeMatch_withOperandsOf]

/-- The bits `op[1:0]` of a generator's word are the shape code, and `op[2]` is 0 (R61, R63). -/
theorem wordBits_encode_ofShape (s : Shape) (n : Count) :
    wordBits (encode (Instr.ofShape s n)) 30 29 = s.code.toNat ∧
    wordBits (encode (Instr.ofShape s n)) 31 29 = s.code.toNat := by
  have hn := n.isLt
  have hs := s.code.isLt
  rw [encode_ofShape, wordBits, wordBits, encodeG_toNat]
  omega

/-! ### The illegal words -/

/-- A word is illegal exactly when no row of the opcode map takes it (R65). -/
theorem illegal_iff_no_row (w : CmdWord) :
    (∃ e, decode w = .error e) ↔ ∀ i : Instr, w &&& opcodeMask i ≠ opcodeMatch i := by
  constructor
  · rintro ⟨e, he⟩ i hi
    rw [(matches_row_iff_decode w i).mp hi] at he
    cases he
  · intro hno
    cases h : decode w with
    | error e => exact ⟨e, rfl⟩
    | ok i => exact absurd (encode_of_decode w i h ▸ encode_matches_row i) (hno i)

/-- The three ways a word is illegal, on its numbered bits (R65). -/
theorem illegal_iff_wordBits (w : CmdWord) :
    (∃ e, decode w = .error e) ↔
      (5 ≤ wordBits w 31 29 ∨ (wordBits w 31 31 = 0 ∧ wordBits w 28 16 ≠ 0) ∨
        (wordBits w 31 29 = 4 ∧ wordBits w 28 24 ≠ 0)) := by
  have hlt := w.isLt
  unfold wordBits
  obtain ⟨hop, hrsv, h⟩ | ⟨hop, hrsv, h⟩ | ⟨hop, hrsv, h⟩ | ⟨hop, hrsv, h⟩ | ⟨hop, h⟩ := decode_cases w
  · exact iff_of_true ⟨_, h⟩ (by omega)
  · exact iff_of_false (by simp [h]) (by omega)
  · exact iff_of_true ⟨_, h⟩ (by omega)
  · exact iff_of_false (by simp [h]) (by omega)
  · exact iff_of_true ⟨_, h⟩ (by omega)

namespace Machine

theorem wordResult_illegal (w : CmdWord) (e : IllegalWord) (h : decode w = .error e) :
    wordResult w = .error .illegalCommand := by
  rw [wordResult, h]

/-- The error entry empties the engine and keeps the reserved bits and the host's side (R152). -/
theorem raise_failed (c : Cause) (s : State) : Failed c s (raiseDomainError c s) :=
  ⟨empty_read, rfl, statusError_valid .., statusError_err .., statusError_cause .., statusError_eseen ..,
    statusError_reserved .., rfl, rfl⟩

end Machine

end Sys2Proof
end

section
/-! PROOFS. The statements of 30_encoding.md. -/

open Sys2Proof Sys2Proof.Machine

/-- Settles O4: each row is a case of `matches_row_iff_decode`, and one decoder answer makes them disjoint. -/
theorem opcodeMapSelectsCommand : Obligations.OpcodeMapSelectsCommand :=
  ⟨fun w => ⟨matches_row_iff_decode w (.genSine 0), matches_row_iff_decode w (.genSquare 0),
    matches_row_iff_decode w (.genSaw 0), matches_row_iff_decode w (.genTri 0),
    matches_row_iff_decode w (.buildRom 0 0), illegal_iff_no_row w⟩,
  opcodeMatch_eq_of_matches, wordBits_encode_ofShape⟩

/-- Settles O5: the decoder's five answers give the three ways, and an illegal word's result is the error of cause 1. -/
theorem illegalWordsRaiseCauseOne : Obligations.IllegalWordsRaiseCauseOne := by
  refine ⟨illegal_iff_wordBits, illegal_iff_no_row, fun w s h => ?_⟩
  obtain ⟨e, he⟩ := h
  exact ⟨_, issueWord_error w _ s (wordResult_illegal w e he), raise_failed _ s, statusError_cause ..,
    statusError_err .., statusError_eseen ..⟩
end

section
/-! SUPPORT. The half length (R83). -/

namespace Sys2Proof.Machine

/-- The half length drops the parity of `n` and nothing else. -/
theorem two_mul_half_add_parity (n : Nat) : 2 * half n + n % 2 = n := Nat.div_add_mod n 2

/-- The half length of a 16-bit count fits the fifteen bits [15:1]. -/
theorem half_countValue_lt (n : Count) : half (countValue n) < 2 ^ 15 :=
  Nat.div_lt_of_lt_mul n.isLt

end Sys2Proof.Machine
end

section
/-! PROOFS. The statements of 40_quantization.md. -/

open Sys2Proof Sys2Proof.Machine

/-- Settles O32: halving drops the parity only, and a half of a 16-bit count is not cut by its fifteen bits. -/
theorem halfLengthIsTheUpperBits : Obligations.HalfLengthIsTheUpperBits := by
  refine ⟨fun n => ⟨rfl, fun heven => ?_, fun hodd => ?_⟩, fun n => (Nat.mod_eq_of_lt (half_countValue_lt n)).symm⟩
  · simpa only [heven, Nat.add_zero] using two_mul_half_add_parity n
  · simpa only [hodd] using two_mul_half_add_parity n
end

section
/-! SUPPORT. What `Commit` leaves of a whole result (R100), the length of a generator command's result, and what the two
ends of a command leave that does not depend on the state before. -/

namespace Sys2Proof.Machine

/-- The written cells of a laid-out sequence are those below its length (R42). -/
theorem ofSamples_read_getD (xs : List Sample) (a : Nat) :
    Memory.read (Memory.ofSamples xs) a = if a < xs.length then some (xs.getD a 0) else none := by
  rw [ofSamples_read]
  split
  · next h => rw [List.getD_eq_getElem _ _ h, List.getElem?_eq_getElem h]
  · next h => exact List.getElem?_eq_none (Nat.le_of_not_lt h)

/-- `Commit` leaves the whole result and keeps ESEEN, the reserved bits and the host's side (R100). -/
theorem commit_committed (xs : List Sample) (s : State) (h : xs.length ≤ 262140) :
    Committed xs.length (fun a => xs.getD a 0) s (commit xs s) :=
  ⟨ofSamples_read_getD xs, commit_len_toNat xs s h, statusCommit_valid _, statusCommit_err _, statusCommit_cause _,
    statusCommit_eseen _, statusCommit_reserved _, rfl, rfl⟩

/-- The generator command of a shape computes that shape's block (R34). -/
theorem commandResult_ofShape (sh : Shape) (n : Count) :
    commandResult (Instr.ofShape sh n) = gen Config.tieRule sh (countValue n) := by
  cases sh <;> rfl

/-- What a command shows of its own end: IMG, LEN and the fields VALID, ERR and CAUSE. -/
def SameShown (t t' : State) : Prop :=
  t.img = t'.img ∧ t.len = t'.len ∧ statusValid t.status = statusValid t'.status ∧
  statusErr t.status = statusErr t'.status ∧ statusCause t.status = statusCause t'.status

/-- Both ends of a command take what they show from the result alone (R100). -/
theorem finish_sameShown (r : Except Cause (List Sample)) (s s' : State) : SameShown (finish r s) (finish r s') := by
  cases r with
  | ok xs => exact ⟨rfl, rfl, by simp [finish], by simp [finish], by simp [finish]⟩
  | error c => exact ⟨rfl, rfl, by simp [finish], by simp [finish], by simp [finish]⟩

/-- A word reads no state (R100): its result, and so what its end shows, is a function of the word. -/
theorem issueWord_sameShown (w : CmdWord) (s s' t t' : State) (h : issueWord w s = .next t)
    (h' : issueWord w s' = .next t') : SameShown t t' := by
  rw [issueWord_eq] at h h'
  cases h
  cases h'
  exact finish_sameShown (wordResult w) s s'

end Sys2Proof.Machine
end

section
/-! PROOFS. The statements of 41_generators.md. -/

open Sys2Proof Sys2Proof.Machine

/-- Settles O21: `Commit` lays out the whole result, whose length the generators and the image assembly fix, and a word
computes its result without reading the state. -/
theorem commitLeavesWholeResult : Obligations.CommitLeavesWholeResult := by
  refine ⟨commit_committed, fun i s xs h => ⟨exec_ok i xs s h, commandResult_length i xs h⟩, fun sh n xs h => ?_,
    fun nb bs xs h => romImage_length _ nb _ xs h, issueWord_sameShown⟩
  rw [commandResult_ofShape] at h
  exact gen_length _ sh _ xs h
end

section
/-! SUPPORT. Where a block of a ROM Image lies (R35, R124), and that being told an answer leaves the engine alone
(R45). -/

namespace Sys2Proof.Machine

/-- The index of `blockSample` is an index of the generated block (R34). -/
theorem gen_getElem? (sh : Shape) (n k : Nat) (xs : List Sample) (h : gen Config.tieRule sh n = .ok xs) (hk : k < n) :
    xs[k]? = some (blockSample sh n k) := by
  have hlen : k < xs.length := by rwa [gen_length _ sh n xs h]
  simp only [blockSample, h]
  rw [List.getD_eq_getElem _ _ hlen, List.getElem?_eq_getElem hlen]

/-- Blocks that are generated begin with the first shape's block (R35). -/
theorem genBlocks_cons_ok (t : TieRule) (n : Nat) (sh : Shape) (shs : List Shape) (xs : List Sample)
    (h : genBlocks t n (sh :: shs) = .ok xs) :
    ∃ block rest, gen t sh n = .ok block ∧ genBlocks t n shs = .ok rest ∧ xs = block ++ rest := by
  simp only [genBlocks] at h
  split at h
  · cases h
  · next block hblock =>
    split at h
    · cases h
    · next rest hrest =>
      cases h
      exact ⟨block, rest, hblock, hrest, rfl⟩

/-- Sample `k` of block `b` lies at `b·n + k`: every block before it has `n` samples (R35). -/
theorem genBlocks_getElem? (n : Nat) (shs : List Shape) (xs : List Sample) (sh : Shape) (b k : Nat)
    (h : genBlocks Config.tieRule n shs = .ok xs) (hb : shs[b]? = some sh) (hk : k < n) :
    xs[b * n + k]? = some (blockSample sh n k) := by
  induction shs generalizing xs b with
  | nil => simp at hb
  | cons first shs ih =>
    obtain ⟨block, rest, hblock, hrest, rfl⟩ := genBlocks_cons_ok _ n first shs xs h
    have hlen : block.length = n := gen_length _ first n block hblock
    cases b with
    | zero =>
      obtain rfl : first = sh := by simpa using hb
      rw [Nat.zero_mul, Nat.zero_add, List.getElem?_append_left (by omega)]
      exact gen_getElem? first n k block hblock hk
    | succ b =>
      have hshift : (b + 1) * n + k = block.length + (b * n + k) := by rw [hlen]; ring
      rw [hshift, List.getElem?_append_right (Nat.le_add_right _ _), Nat.add_sub_cancel_left]
      exact ih rest b hrest (by simpa using hb)

/-- The code of a shape is its position in the fixed order (R33). -/
theorem shapes_getElem?_code (sh : Shape) : Config.shapes[sh.code.toNat]? = some sh := by cases sh <;> rfl

/-- A ROM Image is the blocks of the four shapes (R35). -/
theorem romImage_ok_genBlocks (t : TieRule) (nb : BlockCount) (n : Nat) (xs : List Sample)
    (h : romImage t nb n = .ok xs) : genBlocks t n Config.shapes = .ok xs := by
  unfold romImage at h
  split at h
  · cases h
  · exact h

/-- The four blocks are assembled for every even block size from 4 on (R120). -/
theorem romImage_legal_ok (t : TieRule) (n : Nat) (h4 : 4 ≤ n) (heven : n % 2 = 0) : ∃ xs, romImage t 4 n = .ok xs := by
  rcases romImage_cases t 4 n with ⟨hnb, -⟩ | ⟨-, hsmall, -⟩ | ⟨-, -, hodd, -⟩ | ⟨-, -, -, e⟩
  · exact absurd rfl hnb
  · omega
  · omega
  · exact ⟨_, e⟩

/-- Block lookup by shape code and offset (R124). -/
theorem romImage_block (nb : BlockCount) (n : Nat) (xs : List Sample) (sh : Shape) (k : Nat)
    (h : romImage Config.tieRule nb n = .ok xs) (hk : k < n) :
    xs[sh.code.toNat * n + k]? = some (blockSample sh n k) :=
  genBlocks_getElem? n _ xs sh _ k (romImage_ok_genBlocks _ nb n xs h) (shapes_getElem?_code sh) hk

/-- Every number below 4 is the code of a shape (R33). -/
theorem exists_shape_code (b : Nat) (h : b < 4) : ∃ sh : Shape, sh.code.toNat = b :=
  ⟨Shape.ofCode (BitVec.ofNat 2 b), by rw [shape_code_ofCode, BitVec.toNat_ofNat]; omega⟩

/-- Block lookup by address (R124): address `i` is offset `i mod n` of block `i div n`. -/
theorem romImage_address (nb : BlockCount) (n : Nat) (xs : List Sample) (i : Nat)
    (h : romImage Config.tieRule nb n = .ok xs) (hi : i < 4 * n) :
    ∃ sh : Shape, sh.code.toNat = i / n ∧ xs[i]? = some (blockSample sh n (i % n)) := by
  have hn : 0 < n := by omega
  obtain ⟨sh, hsh⟩ := exists_shape_code (i / n) (Nat.div_lt_of_lt_mul (by rwa [Nat.mul_comm]))
  have hblock := romImage_block nb n xs sh (i % n) h (Nat.mod_lt i hn)
  rw [hsh, Nat.div_add_mod'] at hblock
  exact ⟨sh, hsh, hblock⟩

/-- Telling the host an answer changes nothing in the engine (R45). -/
theorem tell_sameEngine (r : Answer) (s : State) : SameEngine s (tell r s) :=
  ⟨tell_img r s, tell_len r s, tell_status r s⟩

/-- `LEN` zero-extended is the 32-bit word of the same number (R123). -/
theorem readLen_eq (s : State) : readLen s = .len (BitVec.ofNat 32 s.len.toNat) := by
  rw [readLen, BitVec.ofNat_toNat]

end Sys2Proof.Machine
end

section
/-! PROOFS. The statements of 42_rom_assembly.md. -/

open Sys2Proof Sys2Proof.Machine

/-- Settles O51: `BUILD_ROM` commits the four blocks, and a committed sequence is read at its own indices. -/
theorem romImageBlockLookup : Obligations.RomImageBlockLookup := by
  intro n s h4 heven
  obtain ⟨xs, hrom⟩ := romImage_legal_ok Config.tieRule n.toNat h4 heven
  have hresult : commandResult (.buildRom 4 n) = .ok xs := hrom
  have hlen : xs.length = 4 * n.toNat := romImage_length _ 4 _ xs hrom
  have hread : ∀ i, Memory.read (commit xs s).img i = xs[i]? := ofSamples_read xs
  refine ⟨commit xs s, exec_ok _ xs s hresult, ?_, fun sh k hk => ?_, fun i hi => ?_, fun i hi => ?_⟩
  · rw [commit_len_toNat xs s (commandResult_length _ xs hresult), hlen]
  · rw [hread, romImage_block 4 _ xs sh k hrom hk]
  · rw [hread]
    exact romImage_address 4 _ xs i hrom hi
  · rw [hread, List.getElem?_eq_none (by omega)]

/-- Settles O55: both reads answer the register and are told to the host, which leaves the engine alone. -/
theorem registerReadsReturnRegisters : Obligations.RegisterReadsReturnRegisters := by
  refine ⟨fun s => ⟨rfl, _, rfl, tell_sameEngine _ s⟩, fun s => ⟨readLen_eq s, _, rfl, tell_sameEngine _ s⟩,
    fun s => ⟨?_, ?_⟩⟩
  · rw [readStatus, resetEngine_status]
  · simp [readLen]
end

section
/-! SUPPORT. When the generators, the image assembly, a command and a word fail, and with which cause (R151, R154); and
what an earlier error leaves to be seen of it (R155). -/

namespace Sys2Proof.Machine

/-! ### Which counts fail (R103, R104, R120) -/

theorem sawBlock_error_iff (t : TieRule) (n : Nat) (c : Cause) :
    sawBlock t n = .error c ↔ n < 2 ∧ c = .countTooSmall := by
  obtain ⟨hn, e⟩ | ⟨hn, e⟩ := sawBlock_cases t n
  · grind
  · grind

theorem triBlock_error_iff (t : TieRule) (n : Nat) (c : Cause) :
    triBlock t n = .error c ↔ n < 4 ∧ c = .countTooSmall ∨ n % 2 = 1 ∧ 5 ≤ n ∧ c = .countOdd := by
  obtain ⟨hn, e⟩ | ⟨hn, hodd, e⟩ | ⟨hn, heven, e⟩ := triBlock_cases t n
  · grind
  · grind
  · grind

theorem romImage_error_iff (t : TieRule) (nb : BlockCount) (n : Nat) (c : Cause) :
    romImage t nb n = .error c ↔
      nb ≠ 4 ∧ c = .blockCount ∨ nb = 4 ∧ (n < 4 ∧ c = .countTooSmall ∨ n % 2 = 1 ∧ 5 ≤ n ∧ c = .countOdd) := by
  obtain ⟨hnb, e⟩ | ⟨hnb, hn, e⟩ | ⟨hnb, hn, hodd, e⟩ | ⟨hnb, hn, heven, e⟩ := romImage_cases t nb n
  · grind
  · grind
  · grind
  · grind

/-! ### Which commands fail (R151) -/

/-- When a command raises a cause, command by command (R101 to R104, R120). -/
def Raises (c : Cause) : Instr → Prop
  | .genSine _ => False
  | .genSquare _ => False
  | .genSaw n => n.toNat < 2 ∧ c = .countTooSmall
  | .genTri n => n.toNat < 4 ∧ c = .countTooSmall ∨ n.toNat % 2 = 1 ∧ 5 ≤ n.toNat ∧ c = .countOdd
  | .buildRom nb bs => nb ≠ 4 ∧ c = .blockCount ∨
      nb = 4 ∧ (bs.toNat < 4 ∧ c = .countTooSmall ∨ bs.toNat % 2 = 1 ∧ 5 ≤ bs.toNat ∧ c = .countOdd)

theorem commandResult_error_iff (i : Instr) (c : Cause) : commandResult i = .error c ↔ Raises c i := by
  cases i with
  | genSine n => simp [commandResult, gen, sineBlock_ok, Raises]
  | genSquare n => simp [commandResult, gen, squareBlock_ok, Raises]
  | genSaw n => exact sawBlock_error_iff _ _ c
  | genTri n => exact triBlock_error_iff _ _ c
  | buildRom nb bs => exact romImage_error_iff _ nb _ c

theorem not_raises_illegalCommand (i : Instr) : ¬ Raises .illegalCommand i := by
  cases i <;> simp [Raises]

theorem raises_blockCount_iff (i : Instr) : Raises .blockCount i ↔ ∃ nb bs, i = .buildRom nb bs ∧ nb ≠ 4 := by
  cases i <;> simp [Raises]

theorem raises_countTooSmall_iff (i : Instr) : Raises .countTooSmall i ↔
    (∃ n, i = .genSaw n ∧ n.toNat < 2) ∨ (∃ n, i = .genTri n ∧ n.toNat < 4) ∨
    (∃ bs, i = .buildRom 4 bs ∧ bs.toNat < 4) := by
  cases i <;> simp [Raises]

theorem raises_countOdd_iff (i : Instr) : Raises .countOdd i ↔
    (∃ n, i = .genTri n ∧ n.toNat % 2 = 1 ∧ 5 ≤ n.toNat) ∨
    (∃ bs, i = .buildRom 4 bs ∧ bs.toNat % 2 = 1 ∧ 5 ≤ bs.toNat) := by
  cases i <;> simp [Raises]

/-! ### Which words fail (R65, R151) -/

theorem wordResult_legal (w : CmdWord) (i : Instr) (h : decode w = .ok i) : wordResult w = commandResult i := by
  rw [wordResult, h]

theorem wordResult_illegalCommand_iff (w : CmdWord) :
    wordResult w = .error .illegalCommand ↔ ∃ e, decode w = .error e := by
  cases h : decode w with
  | ok i => simp [wordResult_legal w i h, commandResult_error_iff, not_raises_illegalCommand]
  | error e => simp [wordResult_illegal w e h]

/-- A cause other than ILLEGAL_COMMAND is the cause of the command that the word spells. -/
theorem wordResult_error_iff (w : CmdWord) (c : Cause) (hc : c ≠ .illegalCommand) :
    wordResult w = .error c ↔ ∃ i, decode w = .ok i ∧ Raises c i := by
  cases h : decode w with
  | ok i => simp [wordResult_legal w i h, commandResult_error_iff]
  | error e => simp [wordResult_illegal w e h, hc.symm]

theorem wordResult_blockCount_iff (w : CmdWord) :
    wordResult w = .error .blockCount ↔ ∃ nb bs, decode w = .ok (.buildRom nb bs) ∧ nb ≠ 4 := by
  rw [wordResult_error_iff w _ (by decide)]
  cases decode w <;> simp [raises_blockCount_iff]

theorem wordResult_countTooSmall_iff (w : CmdWord) : wordResult w = .error .countTooSmall ↔
    (∃ n, decode w = .ok (.genSaw n) ∧ n.toNat < 2) ∨ (∃ n, decode w = .ok (.genTri n) ∧ n.toNat < 4) ∨
    (∃ bs, decode w = .ok (.buildRom 4 bs) ∧ bs.toNat < 4) := by
  rw [wordResult_error_iff w _ (by decide)]
  cases decode w <;> simp [raises_countTooSmall_iff]

theorem wordResult_countOdd_iff (w : CmdWord) : wordResult w = .error .countOdd ↔
    (∃ n, decode w = .ok (.genTri n) ∧ n.toNat % 2 = 1 ∧ 5 ≤ n.toNat) ∨
    (∃ bs, decode w = .ok (.buildRom 4 bs) ∧ bs.toNat % 2 = 1 ∧ 5 ≤ bs.toNat) := by
  rw [wordResult_error_iff w _ (by decide)]
  cases decode w <;> simp [raises_countOdd_iff]

/-! ### What a failure and a success show in STATUS (R100, R152) -/

theorem cause_code_range (c : Cause) : 1 ≤ c.code.toNat ∧ c.code.toNat ≤ 4 := by
  cases c <;> decide

/-- A command that raises a cause shows its code in CAUSE. -/
theorem exec_raises (i : Instr) (c : Cause) (s : State) (h : Raises c i) :
    ∃ t, exec i s = .next t ∧ statusCause t.status = c.code :=
  ⟨_, exec_error i c s ((commandResult_error_iff i c).mpr h), statusError_cause ..⟩

/-- A word that fails shows the code of its cause in CAUSE. -/
theorem issueWord_error_cause (w : CmdWord) (s t : State) (c : Cause) (h : issueWord w s = .next t)
    (hr : wordResult w = .error c) : statusCause t.status = c.code := by
  rw [issueWord_error w c s hr] at h
  cases h
  exact statusError_cause ..

/-- A word that succeeds shows no cause and no error. -/
theorem issueWord_ok_noError (w : CmdWord) (s t : State) (xs : List Sample) (h : issueWord w s = .next t)
    (hr : wordResult w = .ok xs) : statusCause t.status = 0 ∧ statusErr t.status = false := by
  rw [issueWord_ok w xs s hr] at h
  cases h
  exact ⟨statusCommit_cause _, statusCommit_err _⟩

/-! ### The order of the tests (R154) -/

/-- The first shape in the list whose block fails gives the cause, whatever stands after it. -/
theorem genBlocks_first_error (t : TieRule) (n : Nat) (before : List Shape) (sh : Shape) (after : List Shape) (c : Cause)
    (hbefore : ∀ sh' ∈ before, ∃ xs, gen t sh' n = .ok xs) (h : gen t sh n = .error c) :
    genBlocks t n (before ++ sh :: after) = .error c := by
  induction before with
  | nil => simp [genBlocks, h]
  | cons first before ih =>
    obtain ⟨hfirst, hrest⟩ := List.forall_mem_cons.mp hbefore
    obtain ⟨xs, hxs⟩ := hfirst
    simp [genBlocks, hxs, ih hrest]

/-- The shapes that stand before a shape in the fixed order have smaller codes (R33). -/
theorem shapes_split (sh : Shape) :
    ∃ before after, Config.shapes = before ++ sh :: after ∧ ∀ sh' ∈ before, sh'.code < sh.code := by
  cases sh with
  | sine => exact ⟨[], [.square, .sawtooth, .triangle], rfl, by decide⟩
  | square => exact ⟨[.sine], [.sawtooth, .triangle], rfl, by decide⟩
  | sawtooth => exact ⟨[.sine, .square], [.triangle], rfl, by decide⟩
  | triangle => exact ⟨[.sine, .square, .sawtooth], [], rfl, by decide⟩

/-- With the block count legal, the first generator in shape order that fails gives the cause (R120, R154). -/
theorem romImage_first_error (t : TieRule) (n : Nat) (sh : Shape) (c : Cause) (h : gen t sh n = .error c)
    (hbefore : ∀ sh' : Shape, sh'.code < sh.code → ∃ xs, gen t sh' n = .ok xs) : romImage t 4 n = .error c := by
  obtain ⟨before, after, hshapes, hcode⟩ := shapes_split sh
  have hblocks : genBlocks t n Config.shapes = .error c :=
    hshapes ▸ genBlocks_first_error t n before sh after c (fun sh' hmem => hbefore sh' (hcode sh' hmem)) h
  exact hblocks

/-! ### After an error (R155) -/

/-- A second error leaves what it would have left without the first. -/
theorem raise_raise (c c' : Cause) (s : State) :
    raiseDomainError c' (raiseDomainError c s) = raiseDomainError c' s := by
  simp [raiseDomainError, statusError, statusPack_reserved]

/-- No command clears ESEEN (R24). -/
theorem finish_keeps_eseen (r : Except Cause (List Sample)) (s : State) (h : statusEseen s.status = true) :
    statusEseen (finish r s).status = true := by
  obtain ⟨xs, -, e⟩ | ⟨c, -, e⟩ := finish_cases r s
  · simp [e, h]
  · simp [e]

/-- No move but a reset clears ESEEN (R24). -/
theorem perform_clears_eseen (s t : State) (m : Move) (h : perform m s = .next t) (hs : statusEseen s.status = true)
    (ht : statusEseen t.status = false) : m = .reset := by
  obtain ⟨hm, -⟩ | ⟨w, -, rfl⟩ | ⟨-, r, rfl⟩ := perform_cases m s t h
  · exact hm
  · rw [finish_keeps_eseen _ s hs] at ht
    cases ht
  · rw [tell_status, hs] at ht
    cases ht

end Sys2Proof.Machine
end

section
/-! PROOFS. The statements of 60_exceptions.md. -/

open Sys2Proof Sys2Proof.Machine

/-- Settles O25: each cause by the commands that raise it, and CAUSE by the end that the word takes. -/
theorem causesAndWhoRaisesThem : Obligations.CausesAndWhoRaisesThem := by
  refine ⟨wordResult_illegalCommand_iff, wordResult_blockCount_iff, wordResult_countTooSmall_iff,
    wordResult_countOdd_iff, issueWord_error_cause, issueWord_ok_noError, fun n s => ?_, fun s t a h => ?_,
    cause_code_range, rfl, rfl, rfl, rfl⟩
  · exact ⟨_, _, exec_ok _ _ s (sineBlock_ok _ _), exec_ok _ _ s (squareBlock_ok _), statusCommit_err _,
      statusCommit_err _⟩
  · obtain ⟨r, rfl⟩ := perform_read s t (.readImg a) rfl h
    exact tell_status r s

/-- Settles O26: the generators are tried in shape order, and the worked commands are cases of the tests. -/
theorem causePriority : Obligations.CausePriority := by
  have blockCount (nb : BlockCount) (bs : Count) (s : State) (hnb : nb ≠ 4) :=
    exec_raises (.buildRom nb bs) .blockCount s (.inl ⟨hnb, rfl⟩)
  have romTooSmall (bs : Count) (s : State) (hbs : bs.toNat < 4) :=
    exec_raises (.buildRom 4 bs) .countTooSmall s (.inr ⟨rfl, .inl ⟨hbs, rfl⟩⟩)
  have triTooSmall (n : Count) (s : State) (hn : n.toNat < 4) :=
    exec_raises (.genTri n) .countTooSmall s (.inl ⟨hn, rfl⟩)
  refine ⟨fun w s e h => ?_, blockCount, fun bs s sh c h hbefore => ?_, triTooSmall,
    fun s => blockCount 3 1 s (by decide), fun s => romTooSmall 1 s (by decide), fun s => romTooSmall 3 s (by decide),
    fun s => triTooSmall 3 s (by decide), fun s => triTooSmall 1 s (by decide), fun c c' s => ?_⟩
  · exact ⟨_, issueWord_error w _ s (wordResult_illegal w e h), statusError_cause ..⟩
  · exact ⟨_, exec_error _ c s (romImage_first_error _ _ sh c h hbefore), statusError_cause ..⟩
  · simp

/-- Settles O27: a word's end shows nothing of the state before it, and only a reset clears ESEEN. -/
theorem recoveryAfterAnError : Obligations.RecoveryAfterAnError := by
  refine ⟨fun w c s => ?_, fun w c xs s h => ?_, fun w c c' s h => ?_, perform_clears_eseen⟩
  · obtain ⟨himg, hlen, hvalid, herr, hcause⟩ := finish_sameShown (wordResult w) (raiseDomainError c s) s
    exact ⟨_, _, issueWord_eq w s, issueWord_eq w _, himg, hlen, hvalid, herr, hcause,
      finish_keeps_eseen _ _ (statusError_eseen ..)⟩
  · have heseen : statusEseen (commit xs (raiseDomainError c s)).status = true := by simp
    exact ⟨_, issueWord_ok w xs _ h, statusCommit_valid _, statusCommit_err _, statusCommit_cause _, heseen⟩
  · exact ⟨_, issueWord_error w c' _ h, raise_raise c c' s ▸ raise_failed c' s⟩

/-- Settles O22: the error entry's fields, and the range of the cause codes. -/
theorem errorEntryEmptiesEngine : Obligations.ErrorEntryEmptiesEngine :=
  fun c s => ⟨raise_failed c s, cause_code_range c⟩
end

section
/-! SUPPORT. What the reset word of STATUS shows field by field, and what a reset leaves of the engine (R32, R180). -/

namespace Sys2Proof.Machine

/-- The word 0, which STATUS holds after a reset, has every field 0 (R24, R32). -/
theorem status_zero_fields : statusValid 0 = false ∧ statusErr 0 = false ∧ statusCause 0 = 0 ∧ statusEseen 0 = false := by
  decide

theorem resetEngine_sameEngine (s : State) : SameEngine State.reset (resetEngine s) := ⟨rfl, rfl, rfl⟩

/-- A move that is not a reset keeps ESEEN (R24, R180). -/
theorem perform_keeps_eseen (s t : State) (m : Move) (h : perform m s = .next t) (hm : m ≠ .reset)
    (hs : statusEseen s.status = true) : statusEseen t.status = true := by
  by_contra ht
  exact hm (perform_clears_eseen s t m h hs (Bool.eq_false_of_not_eq_true ht))

end Sys2Proof.Machine
end

section
/-! PROOFS. The statements of 70_reset_and_hazards.md. -/

open Sys2Proof Sys2Proof.Machine

/-- Settles O56: a reset ends in the reset engine whatever the state was, and every other move keeps ESEEN. -/
theorem resetFromEveryState : Obligations.ResetFromEveryState := by
  refine ⟨fun s => ?_, perform_keeps_eseen⟩
  obtain ⟨hvalid, herr, hcause, heseen⟩ := status_zero_fields
  have hunwritten (a : Nat) : Memory.read (resetEngine s).img a = none := by rw [resetEngine_img, empty_read]
  exact ⟨resetEngine s, rfl, hunwritten, resetEngine_len s, resetEngine_status s, hvalid, herr, hcause, heseen,
    resetEngine_sameEngine s⟩
end

section
/-! SUPPORT. The branches of `Decode` on the numbered bits and the two ends of an issue (R69), the legal words counted by
their operands (R66), and what the assembler makes of a written command (R68). -/

namespace Sys2Proof

/-! ### Decode on the numbered bits (R69) -/

/-- The fields of a word are the numbers its bits form (R60 to R62). -/
theorem ofNat_wordBits_fields (w : CmdWord) :
    BitVec.ofNat 2 (wordBits w 30 29) = shapeField w ∧ BitVec.ofNat 8 (wordBits w 23 16) = nbField w ∧
    BitVec.ofNat 16 (wordBits w 15 0) = countField w := by
  refine ⟨BitVec.eq_of_toNat_eq ?_, BitVec.eq_of_toNat_eq ?_, BitVec.eq_of_toNat_eq ?_⟩
  · rw [BitVec.toNat_ofNat, shapeField_toNat, wordBits]
    omega
  · rw [BitVec.toNat_ofNat, nbField_toNat, wordBits]
    omega
  · rw [BitVec.toNat_ofNat, countField_toNat, wordBits]
    omega

/-- The format G branch of `Decode`: `op[2]` clear and `rsvG` zero (R69). -/
theorem decode_formatG (w : CmdWord) (hop : wordBits w 31 31 = 0) (hrsv : wordBits w 28 16 = 0) :
    decode w = .ok (Instr.ofShape (Shape.ofCode (shapeField w)) (countField w)) := by
  have hlt := w.isLt
  unfold wordBits at hop hrsv
  obtain ⟨-, h, -⟩ | ⟨-, -, h⟩ | ⟨h, -⟩ | ⟨h, -⟩ | ⟨h, -⟩ := decode_cases w
  · omega
  · exact h
  · omega
  · omega
  · omega

/-- The format B branch of `Decode`: `op` 0b100 and `rsvB` zero (R69). -/
theorem decode_formatB (w : CmdWord) (hop : wordBits w 31 29 = 4) (hrsv : wordBits w 28 24 = 0) :
    decode w = .ok (.buildRom (nbField w) (countField w)) := by
  have hlt := w.isLt
  unfold wordBits at hop hrsv
  obtain ⟨h, -⟩ | ⟨h, -⟩ | ⟨-, h, -⟩ | ⟨-, -, h⟩ | ⟨h, -⟩ := decode_cases w
  · omega
  · omega
  · omega
  · exact h
  · omega

/-! ### The number of legal words (R66) -/

/-- The operands of a command: a shape code with a count, or a block count with a block size (R63). -/
abbrev Operands := (BitVec 2 × Count) ⊕ (BlockCount × Count)

/-- The operands a command carries. -/
def Instr.operands : Instr → Operands
  | .genSine n => .inl (0, n)
  | .genSquare n => .inl (1, n)
  | .genSaw n => .inl (2, n)
  | .genTri n => .inl (3, n)
  | .buildRom nb bs => .inr (nb, bs)

/-- The command that carries the operands. -/
def Operands.instr : Operands → Instr
  | .inl (c, n) => Instr.ofShape (Shape.ofCode c) n
  | .inr (nb, bs) => .buildRom nb bs

theorem operands_ofShape (sh : Shape) (n : Count) : (Instr.ofShape sh n).operands = .inl (sh.code, n) := by
  cases sh <;> rfl

/-- A command is its operands, and every operands are some command's (R63, R64). -/
def Instr.equivOperands : Instr ≃ Operands where
  toFun := Instr.operands
  invFun := Operands.instr
  left_inv i := by cases i <;> rfl
  right_inv
    | .inl (c, n) => by rw [Operands.instr, operands_ofShape, shape_code_ofCode]
    | .inr _ => rfl

/-- The legal words are the encodings of the commands, each of exactly one (R69). -/
noncomputable def Instr.equivLegalWord : Instr ≃ { w : CmdWord // ∃ i, decode w = .ok i } :=
  Equiv.ofBijective (fun i => ⟨encode i, i, decode_encode i⟩)
    ⟨fun i j h => Except.ok.inj <| by rw [← decode_encode i, ← decode_encode j, Subtype.mk.inj h],
     fun ⟨w, i, h⟩ => ⟨i, Subtype.ext (encode_of_decode w i h)⟩⟩

theorem natCard_bitVec (n : Nat) : Nat.card (BitVec n) = 2 ^ n := by
  rw [Nat.card_congr (BitVec.equivFin (m := n)).toEquiv, Nat.card_fin]

/-- Four shapes with a 16-bit count, and an 8-bit block count with a 16-bit block size (R66). -/
theorem natCard_operands : Nat.card Operands = 4 * 2 ^ 16 + 2 ^ 24 := by
  rw [Operands, Nat.card_sum, Nat.card_prod, Nat.card_prod, natCard_bitVec, natCard_bitVec, natCard_bitVec]
  norm_num

/-! ### The assembler (R68) -/

theorem countFits_iff (n : Nat) : countFits n = true ↔ n ≤ 65535 := decide_eq_true_iff

theorem blockCountFits_iff (n : Nat) : blockCountFits n = true ↔ n ≤ 255 := decide_eq_true_iff

/-- What is written assembles exactly when the assembler's check passes. -/
theorem assemble_isSome_iff (src : Source) : (assemble src).isSome = true ↔ src.wellFormed = true := by
  unfold assemble
  split
  · next h => cases src <;> simp [h]
  · next h => simp [h]

theorem assemble_eq_none (src : Source) (h : ¬ src.wellFormed = true) : assemble src = none := if_neg h

theorem assemble_gen (sh : Shape) (n : Nat) :
    assemble (.gen sh n) = if n ≤ 65535 then some (Instr.ofShape sh (BitVec.ofNat 16 n)) else none := by
  simp only [assemble, Source.wellFormed, countFits_iff]

/-- The build command with operands that fit, an omitted one at its default. -/
theorem assemble_build (nb bs : Option Nat) (hnb : ∀ n ∈ nb, n ≤ 255) (hbs : ∀ n ∈ bs, n ≤ 65535) :
    assemble (.build nb bs) = some (.buildRom (BitVec.ofNat 8 (nb.getD 4)) (BitVec.ofNat 16 (bs.getD 256))) := by
  have h : (Source.build nb bs).wellFormed = true := by
    rw [Source.wellFormed, Bool.and_eq_true, Option.all_eq_true, Option.all_eq_true]
    exact ⟨fun n hn => (blockCountFits_iff n).mpr (hnb n hn), fun n hn => (countFits_iff n).mpr (hbs n hn)⟩
  rw [assemble, if_pos h]
  cases nb <;> cases bs <;> rfl

/-- The number of the build command's word, for operands that fit their fields. -/
theorem encode_buildRom_ofNat (nb bs : Nat) (hnb : nb ≤ 255) (hbs : bs ≤ 65535) :
    (encode (.buildRom (BitVec.ofNat 8 nb) (BitVec.ofNat 16 bs))).toNat = 0x80000000 + nb * 0x10000 + bs := by
  rw [encode, encodeB_toNat, BitVec.toNat_ofNat, BitVec.toNat_ofNat]
  omega

/-- The number of the word that a written build command gets. -/
theorem assemble_build_word (nb bs : Option Nat) (hnb : ∀ n ∈ nb, n ≤ 255) (hbs : ∀ n ∈ bs, n ≤ 65535) :
    (assemble (.build nb bs)).map (fun i => (encode i).toNat) =
      some (0x80000000 + nb.getD 4 * 0x10000 + bs.getD 256) := by
  have hnb' : nb.getD 4 ≤ 255 := by cases nb <;> simp_all
  have hbs' : bs.getD 256 ≤ 65535 := by cases bs <;> simp_all
  rw [assemble_build nb bs hnb hbs, Option.map_some, encode_buildRom_ofNat _ _ hnb' hbs']

/-- A generator command is written with its own count. -/
theorem assemble_gen_toNat (sh : Shape) (n : Count) : assemble (.gen sh n.toNat) = some (Instr.ofShape sh n) := by
  have hn : n.toNat ≤ 65535 := Nat.le_of_lt_succ n.isLt
  rw [assemble_gen, if_pos hn, BitVec.ofNat_toNat, BitVec.setWidth_eq]

/-- The build command is written with its own operands. -/
theorem assemble_build_toNat (nb : BlockCount) (bs : Count) :
    assemble (.build (some nb.toNat) (some bs.toNat)) = some (.buildRom nb bs) := by
  have hnb : nb.toNat ≤ 255 := Nat.le_of_lt_succ nb.isLt
  have hbs : bs.toNat ≤ 65535 := Nat.le_of_lt_succ bs.isLt
  rw [assemble_build _ _ (by simpa using hnb) (by simpa using hbs)]
  simp

/-- Every command can be written. -/
theorem exists_source (i : Instr) : ∃ src : Source, assemble src = some i := by
  cases i with
  | genSine n => exact ⟨_, assemble_gen_toNat .sine n⟩
  | genSquare n => exact ⟨_, assemble_gen_toNat .square n⟩
  | genSaw n => exact ⟨_, assemble_gen_toNat .sawtooth n⟩
  | genTri n => exact ⟨_, assemble_gen_toNat .triangle n⟩
  | buildRom nb bs => exact ⟨_, assemble_build_toNat nb bs⟩

namespace Machine

theorem issueWord_legal (w : CmdWord) (i : Instr) (s : State) (h : decode w = .ok i) : issueWord w s = exec i s := by
  rw [issueWord, h]

theorem issueWord_illegal (w : CmdWord) (e : IllegalWord) (s : State) (h : decode w = .error e) :
    issueWord w s = .next (raiseDomainError .illegalCommand s) := by
  rw [issueWord, h]

/-- Every issue ends in `Commit` or in the error entry (R69). -/
theorem issueWord_two_ends (w : CmdWord) (s : State) :
    (∃ xs, issueWord w s = .next (commit xs s)) ∨ (∃ c, issueWord w s = .next (raiseDomainError c s)) := by
  obtain ⟨xs, -, h⟩ | ⟨c, -, h⟩ := issueWord_cases w s _ (issueWord_eq w s)
  · exact .inl ⟨xs, by rw [issueWord_eq, h]⟩
  · exact .inr ⟨c, by rw [issueWord_eq, h]⟩

end Machine

end Sys2Proof
end

section
/-! PROOFS. The statements of 30_encoding.md, continued. -/

open Sys2Proof Sys2Proof.Machine

/-- Settles O1: `decode_encode`, the numbers of the two formats read back field by field. -/
theorem decodeInvertsEncode : Obligations.DecodeInvertsEncode := decode_encode

/-- Settles O2: `encode_of_decode`, a legal word is the number its fields form. -/
theorem encodeInvertsDecode : Obligations.EncodeInvertsDecode := encode_of_decode

/-- Settles O3: the branches of `Decode` on the numbered bits, the two ends of `Exec`, and the encoder's sums. -/
theorem decodeAndExecFollowPseudocode : Obligations.DecodeAndExecFollowPseudocode := by
  refine ⟨fun w => ?_, fun w s => ⟨fun i => issueWord_legal w i s, fun e => issueWord_illegal w e s,
    issueWord_two_ends w s⟩, fun sh n => ⟨?_, decode_encode _⟩, fun nb bs => ⟨encodeB_toNat nb bs, decode_encode _⟩⟩
  · have hillegal := (illegal_iff_wordBits w).mpr
    obtain ⟨hshape, hnb, hcount⟩ := ofNat_wordBits_fields w
    rw [hshape, hnb, hcount]
    exact ⟨fun hop hrsv => hillegal (.inr (.inl ⟨hop, hrsv⟩)), decode_formatG w,
      fun hop hrsv => hillegal (.inr (.inr ⟨hop, hrsv⟩)), decode_formatB w, fun hop => hillegal (.inl hop)⟩
  · rw [encode_ofShape, encodeG_toNat]

/-- Settles O6: the legal words are as many as the commands, and the commands as many as their operands. -/
theorem legalWordCount : Obligations.LegalWordCount := by
  unfold Obligations.LegalWordCount
  rw [← Nat.card_congr Instr.equivLegalWord, Nat.card_congr Instr.equivOperands, natCard_operands]
  norm_num

/-- Settles O7: the decoder evaluated on the listed words. -/
theorem workedWordsDecode : Obligations.WorkedWordsDecode := by
  unfold Obligations.WorkedWordsDecode
  decide

/-- Settles O8: the assembler's check is the fit of each operand, and an operand that fits keeps its number. -/
theorem assemblerExpandsAndRefuses : Obligations.AssemblerExpandsAndRefuses := by
  refine ⟨assemble_isSome_iff, assemble_gen, fun nb bs hnb hbs => ⟨?_, encode_buildRom_ofNat nb bs hnb hbs⟩, ?_,
    fun nb hnb => ?_, fun bs hbs => ?_, fun nb hnb bs => ?_, fun bs hbs nb => ?_, exists_source⟩
  · exact assemble_build (some nb) (some bs) (by simpa using hnb) (by simpa using hbs)
  · rw [assemble_build none none (by simp) (by simp)]
    rfl
  · rw [assemble_build_word (some nb) none (by simpa using hnb) (by simp), Option.getD_some, Option.getD_none]
    exact congrArg some (by omega)
  · exact assemble_build_word none (some bs) (by simp) (by simpa using hbs)
  · refine assemble_eq_none _ ?_
    simp [Source.wellFormed, blockCountFits_iff, hnb]
  · refine assemble_eq_none _ ?_
    simp [Source.wellFormed, countFits_iff, hbs]
end

section
/-! SUPPORT. What a move leaves of the host's side (R142, R143), that every move keeps the invariant of the engine (R22
to R24), that a canonical memory is determined by what it reads as (R22), and what `ReadImg` answers (R122). -/

namespace Sys2Proof.Machine

/-! ### The host's side of a move and of a step (R142, R143) -/

/-- A move leaves the pending moves alone and is answered once if it reads, and otherwise not at all (R142). -/
theorem perform_host (m : Move) (s t : State) (h : perform m s = .next t) :
    t.moves = s.moves ∧ ∃ new, t.answers = s.answers ++ new ∧ new.length = m.isRead.toNat := by
  obtain ⟨rfl, rfl⟩ | ⟨w, rfl, rfl⟩ | ⟨hm, r, rfl⟩ := perform_cases m s t h
  · exact ⟨rfl, [], by simp, rfl⟩
  · exact ⟨finish_moves _ s, [], by simp, rfl⟩
  · exact ⟨rfl, [r], rfl, by rw [hm]; rfl⟩

/-- A step makes the first pending move, and takes no answer back (R142). -/
theorem step_host (s t : State) (h : step s = .next t) :
    t.moves = s.moves.tail ∧
      ∃ new, t.answers = s.answers ++ new ∧ new.length = (s.moves.take 1).countP Move.isRead := by
  obtain ⟨hm, rfl⟩ | ⟨m, rest, hm, hp⟩ := step_cases s t h
  · exact ⟨by rw [hm]; rfl, [], by simp, by rw [hm]; rfl⟩
  · obtain ⟨hmoves, new, hans, hlen⟩ := perform_host m _ t hp
    refine ⟨by rw [hmoves, hm, List.tail_cons], new, hans, ?_⟩
    rw [hlen, hm]
    cases hr : m.isRead <;> simp [hr]

/-- As many steps as there are pending moves make them all, each read answered once (R143). -/
theorem run_all_moves (ms : List Move) (s : State) (hs : s.moves = ms) :
    ∃ t, Sys2Proof.core.run ms.length s = .next t ∧ t.moves = [] ∧
      ∃ new, t.answers = s.answers ++ new ∧ new.length = ms.countP Move.isRead := by
  induction ms generalizing s with
  | nil => exact ⟨s, run_zero s, hs, [], by simp, rfl⟩
  | cons m rest ih =>
    obtain ⟨u, hu⟩ := step_total s
    obtain ⟨humoves, first, hfirst, hfirstLen⟩ := step_host s u hu
    obtain ⟨t, hrun, hmoves, later, hlater, hlaterLen⟩ := ih u (by rw [humoves, hs, List.tail_cons])
    refine ⟨t, by rw [List.length_cons, run_succ _ s u hu, hrun], hmoves, first ++ later, ?_, ?_⟩
    · rw [hlater, hfirst, List.append_assoc]
    · rw [List.length_append, hfirstLen, hlaterLen, hs, ← List.countP_append]
      rfl

/-- More answers never take the mark of a faulted read away (R143). -/
theorem goneWrong_append (s t : State) (new : List Answer) (h : t.answers = s.answers ++ new)
    (hs : goneWrong s = true) : goneWrong t = true := by
  unfold goneWrong at *
  rw [h, List.any_append, hs, Bool.true_or]

/-- A step whose move issues a legal word executes its command (R69). -/
theorem step_issue (s : State) (w : CmdWord) (i : Instr) (rest : List Move) (hm : s.moves = .issue w :: rest)
    (hd : decode w = .ok i) : step s = exec i { s with moves := rest } := by
  rw [step_move s _ rest hm, perform, issueWord_legal w i _ hd]

/-- A command's own word, as a 32-bit row of a table, is the issue of that word (R60). -/
theorem moveOfTableWord_toNat (w : CmdWord) : moveOfTableWord 32 w.toNat = .issue w := by
  rw [moveOfTableWord, Nat.mod_eq_of_lt w.isLt, BitVec.ofNat_toNat, BitVec.setWidth_eq]

/-! ### The invariant of the engine (R22, R23, R24) -/

/-- The invariant speaks of the engine's three pieces of state only. -/
theorem engineInv_of_sameEngine (s t : State) (hst : SameEngine s t) (hs : EngineInv s) : EngineInv t := by
  obtain ⟨img, len, status, moves, answers⟩ := t
  obtain ⟨rfl, rfl, rfl⟩ := hst
  exact ⟨hs.canonical, hs.written, hs.lenRange, hs.reserved, hs.causeRange, hs.validNotErr, hs.errShown,
    hs.noErrNoCause, hs.idleIsReset⟩

/-- `Commit` leaves exactly the cells below LEN written (R22, R100). -/
theorem commit_written_iff (xs : List Sample) (s : State) (hx : xs.length ≤ 262140) (a : Nat) :
    (Memory.read (commit xs s).img a).isSome = true ↔ a < (commit xs s).len.toNat := by
  rw [commit_img, ofSamples_read, commit_len_toNat xs s hx, isSome_getElem?]

/-- The error entry leaves exactly the cells below LEN written, which are none (R22, R152). -/
theorem raise_written_iff (c : Cause) (s : State) (a : Nat) :
    (Memory.read (raiseDomainError c s).img a).isSome = true ↔ a < (raiseDomainError c s).len.toNat := by
  simp

theorem commit_inv (xs : List Sample) (s : State) (hx : xs.length ≤ 262140) (hs : statusReserved s.status = 0) :
    EngineInv (commit xs s) where
  canonical := commit_wf xs s (hx.trans (by decide))
  written := commit_written_iff xs s hx
  lenRange := by rw [commit_len_toNat xs s hx]; exact hx
  reserved := by rw [commit_status, statusCommit_reserved, hs]
  causeRange := by simp
  validNotErr := by simp
  errShown := by simp
  noErrNoCause := by simp
  idleIsReset := by simp

theorem raise_inv (c : Cause) (s : State) (hs : statusReserved s.status = 0) : EngineInv (raiseDomainError c s) where
  canonical := raise_wf c s
  written := raise_written_iff c s
  lenRange := by simp
  reserved := by rw [raise_status, statusError_reserved, hs]
  causeRange := by simpa using (cause_code_bounds c).2
  validNotErr := by simp
  errShown _ := ⟨statusError_eseen .., by simpa using (cause_code_bounds c).1, rfl⟩
  noErrNoCause := by simp
  idleIsReset := by simp

/-- Both ends of a command leave the invariant, of whatever is in IMG and LEN before (R100, R152). -/
theorem finish_inv (w : CmdWord) (s : State) (hs : statusReserved s.status = 0) :
    EngineInv (finish (wordResult w) s) := by
  obtain ⟨xs, hr, e⟩ | ⟨c, -, e⟩ := finish_cases (wordResult w) s <;> rw [e]
  · exact commit_inv xs s (wordResult_length w xs hr) hs
  · exact raise_inv c s hs

theorem perform_keeps_inv (m : Move) (s t : State) (hs : EngineInv s) (h : perform m s = .next t) : EngineInv t := by
  obtain ⟨-, rfl⟩ | ⟨w, -, rfl⟩ | ⟨-, r, rfl⟩ := perform_cases m s t h
  · exact resetEngine_inv s
  · exact finish_inv w s hs.reserved
  · exact engineInv_of_sameEngine s _ (tell_sameEngine r s) hs

theorem step_keeps_inv (s t : State) (hs : EngineInv s) (h : step s = .next t) : EngineInv t := by
  obtain ⟨-, rfl⟩ | ⟨m, rest, -, hp⟩ := step_cases s t h
  · exact hs
  · exact perform_keeps_inv m _ t (engineInv_of_sameEngine s { s with moves := rest } ⟨rfl, rfl, rfl⟩ hs) hp

/-! ### Canonical memories (R22, log entry 7) -/

@[simp] theorem read_cons_self (a : Nat) (v : Sample) (m : Memory) : Memory.read ((a, v) :: m) a = some v :=
  if_pos rfl

theorem read_cons_of_ne (a b : Nat) (v : Sample) (m : Memory) (h : a ≠ b) :
    Memory.read ((b, v) :: m) a = Memory.read m a :=
  if_neg h

theorem risingFrom_cons (b x : Nat) (v : Sample) (m : Memory) :
    Memory.risingFrom b ((x, v) :: m) = true ↔ b ≤ x ∧ x < Config.cap ∧ Memory.risingFrom (x + 1) m = true := by
  simp only [Memory.risingFrom, Bool.and_eq_true, decide_eq_true_eq, and_assoc]

/-- The first written address of a rising memory is not before another's that reads alike. -/
theorem rising_first_le (m m' : Memory) (x y b : Nat) (v w : Sample)
    (h : Memory.risingFrom b ((y, w) :: m') = true)
    (hread : ∀ a, Memory.read ((x, v) :: m) a = Memory.read ((y, w) :: m') a) : y ≤ x := by
  by_contra hlt
  have hrising : Memory.risingFrom y ((y, w) :: m') = true := by
    rw [risingFrom_cons] at h ⊢
    exact ⟨le_rfl, h.2⟩
  have hx := hread x
  rw [read_cons_self, rising_read_below _ y x hrising (by omega)] at hx
  cases hx

/-- Rising memories that read alike list the same cells. -/
theorem rising_ext (m m' : Memory) (b b' : Nat) (h : Memory.risingFrom b m = true) (h' : Memory.risingFrom b' m' = true)
    (hread : ∀ a, Memory.read m a = Memory.read m' a) : m = m' := by
  induction m generalizing m' b b' with
  | nil =>
    cases m' with
    | nil => rfl
    | cons cell' rest' => simpa [Memory.read] using hread cell'.1
  | cons cell rest ih =>
    obtain ⟨x, v⟩ := cell
    cases m' with
    | nil => simpa using hread x
    | cons cell' rest' =>
      obtain ⟨y, w⟩ := cell'
      obtain rfl : x = y := le_antisymm (rising_first_le _ _ y x b w v h fun a => (hread a).symm)
        (rising_first_le _ _ x y b' v w h' hread)
      obtain rfl : v = w := by simpa using hread x
      obtain ⟨-, -, hrest⟩ := (risingFrom_cons b x v rest).mp h
      obtain ⟨-, -, hrest'⟩ := (risingFrom_cons b' x v rest').mp h'
      rw [ih rest' (x + 1) (x + 1) hrest hrest' fun a => ?_]
      by_cases ha : a = x
      · rw [ha, rising_read_below _ _ x hrest (by omega), rising_read_below _ _ x hrest' (by omega)]
      · rw [← read_cons_of_ne a x v rest ha, hread a, read_cons_of_ne a x v rest' ha]

/-- A canonical memory of which no cell is written is the empty one. -/
theorem wf_unwritten_eq_nil (m : Memory) (h : Memory.wf m = true) (hread : ∀ a, Memory.read m a = none) : m = [] :=
  rising_ext m [] 0 0 h empty_wf fun a => by rw [hread a, empty_read]

/-! ### What `ReadImg` answers (R122) -/

theorem readImg_written (a : ImgAddr) (s : State) (v : Sample) (ha : a < s.len)
    (hv : Memory.read s.img a.toNat = some v) : readImg a s = .sample v := by
  rw [readImg, if_pos ha, hv]

theorem readImg_beyond (a : ImgAddr) (s : State) (ha : s.len ≤ a) : readImg a s = .fault (.unwrittenCell a) :=
  if_neg (BitVec.not_lt.mpr ha)

/-- Nothing can be read of an engine whose LEN is 0. -/
theorem readImg_len_zero (a : ImgAddr) (s : State) (h : s.len = 0) : readImg a s = .fault (.unwrittenCell a) :=
  readImg_beyond a s (by rw [h]; exact BitVec.not_lt.mp BitVec.not_lt_zero)

theorem readImg_sameEngine (a : ImgAddr) (s t : State) (h : SameEngine s t) : readImg a t = readImg a s := by
  obtain ⟨himg, hlen, -⟩ := h
  rw [readImg, readImg, himg, hlen]

/-- Under the invariant a cell below LEN holds a Sample (R22). -/
theorem inv_written (s : State) (a : ImgAddr) (hs : EngineInv s) (ha : a < s.len) :
    ∃ v, Memory.read s.img a.toNat = some v :=
  Option.isSome_iff_exists.mp ((hs.written a.toNat).mpr ha)

/-- A word that fails leaves nothing to be read (R152). -/
theorem finish_error_len (r : Except Cause (List Sample)) (c : Cause) (s : State) (h : r = .error c) :
    (finish r s).len = 0 := by
  rw [h]
  rfl

/-! ### Runs of which every move keeps a part of the engine -/

/-- The engine can be read nowhere, and every word the host will issue fails. -/
def NothingReadable (s : State) : Prop :=
  s.len = 0 ∧ ∀ m ∈ s.moves, ∀ w, m = .issue w → ∃ c, wordResult w = .error c

theorem step_keeps_nothingReadable (s t : State) (hs : NothingReadable s) (h : step s = .next t) :
    NothingReadable t := by
  obtain ⟨hlen, hfail⟩ := hs
  obtain ⟨-, rfl⟩ | ⟨m, rest, hm, hp⟩ := step_cases s t h
  · exact ⟨hlen, hfail⟩
  · rw [hm] at hfail
    obtain ⟨hfirst, hrest⟩ := List.forall_mem_cons.mp hfail
    obtain ⟨-, rfl⟩ | ⟨w, hw, rfl⟩ | ⟨-, r, rfl⟩ := perform_cases m _ t hp
    · exact ⟨rfl, hrest⟩
    · obtain ⟨c, hc⟩ := hfirst w hw
      exact ⟨finish_error_len _ c _ hc, by rw [finish_moves]; exact hrest⟩
    · exact ⟨hlen, hrest⟩

/-- The engine is the one of `s`, and the host will only read. -/
def OnlyReadSince (s t : State) : Prop := SameEngine s t ∧ ∀ m ∈ t.moves, m.isRead = true

theorem step_keeps_onlyReadSince (s u t : State) (hu : OnlyReadSince s u) (h : step u = .next t) :
    OnlyReadSince s t := by
  obtain ⟨hsame, hreads⟩ := hu
  obtain ⟨-, rfl⟩ | ⟨m, rest, hm, hp⟩ := step_cases u t h
  · exact ⟨hsame, hreads⟩
  · rw [hm] at hreads
    obtain ⟨hfirst, hrest⟩ := List.forall_mem_cons.mp hreads
    obtain ⟨r, rfl⟩ := perform_read _ t m hfirst hp
    exact ⟨hsame, hrest⟩

/-- Under the invariant, VALID 0 with ERR 0 is the reset engine: no cell is written and every field is 0 (R24). -/
theorem inv_idle_is_reset (s : State) (hs : EngineInv s) (hvalid : statusValid s.status = false)
    (herr : statusErr s.status = false) : SameEngine State.reset s := by
  obtain ⟨heseen, hlen⟩ := hs.idleIsReset hvalid herr
  have hunwritten (a : Nat) : Memory.read s.img a = none := by
    rw [← Option.not_isSome_iff_eq_none, hs.written a, hlen]
    exact Nat.not_lt_zero a
  refine ⟨wf_unwritten_eq_nil s.img hs.canonical hunwritten, hlen, BitVec.eq_of_toNat_eq ?_⟩
  rw [status_toNat s.status, hvalid, herr, hs.noErrNoCause herr, heseen, hs.reserved]
  rfl

end Sys2Proof.Machine
end

section
/-! PROOFS. The statements of 10_state.md, 20_memory.md, 42_rom_assembly.md (the reads), 43_sequencing_and_system.md,
60_exceptions.md and 70_reset_and_hazards.md, continued. -/

open Sys2Proof Sys2Proof.Machine

/-- Settles O14: a reset, each end of a command and a read all leave the invariant. -/
theorem everyStepKeepsInv : Obligations.EveryStepKeepsInv := step_keeps_inv

/-- Settles O16: the pending moves are no part of the invariant, and every step keeps it. -/
theorem everyRunFromResetKeepsInv : Obligations.EveryRunFromResetKeepsInv := by
  intro moves k t h
  have hstart : EngineInv { State.reset with moves := moves } :=
    engineInv_of_sameEngine (resetEngine State.reset) _ ⟨rfl, rfl, rfl⟩ (resetEngine_inv State.reset)
  exact run_keeps EngineInv step_keeps_inv k _ t hstart h

/-- Settles O9: an issue of a legal word is `exec` of its command. -/
theorem stepRunsDecodedCommand : Obligations.StepRunsDecodedCommand :=
  fun s w i rest hm hd => step_issue s w i rest hm hd

/-- Settles O10: the placed word is the host's next move, and it decodes to the command. -/
theorem placedWordRunsNext : Obligations.PlacedWordRunsNext := by
  intro s i
  refine step_issue _ (encode i) i s.moves ?_ (decode_encode i)
  rw [withFetchWord_moves, moveOfTableWord_toNat]

/-- Settles O11: the step makes the first pending move, and each move's own rule says what it leaves. -/
theorem hostMovesFollowTheTable : Obligations.HostMovesFollowTheTable := by
  refine ⟨step_idle, fun s rest hm => ?_, fun s rest w hm => ?_, fun s rest hm => ?_, fun s rest hm => ?_,
    fun s rest a hm => ?_⟩ <;> rw [step_move s _ rest hm]
  · exact ⟨_, rfl, resetEngine_sameEngine _, rfl, rfl⟩
  · exact ⟨_, issueWord_eq w _, issueWord_eq w _, finish_moves _ _, finish_answers _ _⟩
  · exact ⟨_, rfl, tell_sameEngine _ _, rfl, rfl⟩
  · have hlt : s.len.toNat < 2 ^ 32 := by have := s.len.isLt; omega
    refine ⟨_, rfl, tell_sameEngine _ _, rfl, BitVec.ofNat 32 s.len.toNat, ?_, ?_⟩
    · rw [BitVec.toNat_ofNat, Nat.mod_eq_of_lt hlt]
    · rw [tell_answers, readLen_eq]
  · refine ⟨_, rfl, tell_sameEngine _ _, rfl, fun v ha hv => ?_, fun ha => ?_⟩
    · rw [tell_answers, readImg_written a { s with moves := rest } v ha hv]
    · rw [tell_answers, readImg_beyond a { s with moves := rest } ha]

/-- Settles O12: by induction on the pending moves, each step makes one and answers it once if it reads. -/
theorem finiteRunEnds : Obligations.FiniteRunEnds := fun s => run_all_moves s.moves s rfl

/-- Settles O13: a step only adds to the answers. -/
theorem goneWrongIsPermanent : Obligations.GoneWrongIsPermanent := by
  intro s t h
  obtain ⟨-, new, hnew, hlen⟩ := step_host s t h
  have hone : new.length ≤ 1 := by
    rw [hlen]
    exact List.countP_le_length.trans (List.length_take_le 1 _)
  exact ⟨⟨new, hnew, hone⟩, goneWrong_append s t new hnew⟩

/-- Settles O17: neither memory reads below its first cell, so the first cells agree, and so on along the lists. -/
theorem canonicalMemoriesThatReadAlikeAreEqual : Obligations.CanonicalMemoriesThatReadAlikeAreEqual :=
  fun m m' h h' => rising_ext m m' 0 0 h h'

/-- Settles O18: the step makes the move, and only a reset clears the flag. -/
theorem onlyResetClearsEseen : Obligations.OnlyResetClearsEseen := by
  intro s t m rest hm h hs ht
  rw [step_move s m rest hm] at h
  exact perform_clears_eseen _ t m h hs ht

/-- Settles O23: the two ends of a word, each with the whole of what it leaves. -/
theorem everyWordSucceedsOrFailsWhole : Obligations.EveryWordSucceedsOrFailsWhole := by
  intro w s
  refine ⟨_, issueWord_eq w s, ?_⟩
  obtain ⟨xs, hr, e⟩ | ⟨c, hr, e⟩ := finish_cases (wordResult w) s <;> rw [e]
  · exact .inl ⟨xs, hr, commit_committed xs s (wordResult_length w xs hr)⟩
  · exact .inr ⟨c, hr, raise_failed c s⟩

/-- Settles O24: `Commit` keeps ESEEN and writes the cells below LEN; the error entry sets ESEEN and writes none. -/
theorem everyCommandFrame : Obligations.EveryCommandFrame := by
  intro i s
  refine ⟨_, exec_eq i s, ⟨finish_moves _ s, finish_answers _ s⟩, finish_reserved _ s, ?_⟩
  obtain ⟨xs, hr, e⟩ | ⟨c, -, e⟩ := finish_cases (commandResult i) s <;> rw [e]
  · have hx := commandResult_length i xs hr
    exact ⟨.inl (statusCommit_eseen _), commit_written_iff xs s hx, commit_wf xs s (hx.trans (by decide))⟩
  · exact ⟨.inr ⟨statusError_err .., statusError_eseen ..⟩, raise_written_iff c s, raise_wf c s⟩

/-- Settles O54: the two branches of the read, the first of them reached by the invariant. -/
theorem readImgBelowLenElseFault : Obligations.ReadImgBelowLenElseFault := by
  refine ⟨fun s a v => readImg_written a s v, fun s a hs ha => ?_, fun s a => readImg_beyond a s, fun s a => ?_⟩
  · obtain ⟨v, hv⟩ := inv_written s a hs ha
    exact ⟨v, hv, readImg_written a s v ha hv⟩
  · refine ⟨_, rfl, tell_sameEngine _ s, rfl, fun ha => ?_⟩
    rw [readImg_beyond a s ha]
    simp [goneWrong, Answer.isFault]

/-- Settles O57: LEN 0 leaves nothing to read, and no reset, failed word or read changes it. -/
theorem afterResetNothingIsReadable : Obligations.AfterResetNothingIsReadable := by
  obtain ⟨-, -, hreset⟩ := registerReadsReturnRegisters
  refine ⟨fun s a => readImg_len_zero a _ (resetEngine_len s), hreset, inv_idle_is_reset,
    fun moves k s t hfail h a => readImg_len_zero a t ?_⟩
  have hstart : NothingReadable { resetEngine s with moves := moves } := ⟨resetEngine_len s, hfail⟩
  exact (run_keeps NothingReadable step_keeps_nothingReadable k _ t hstart h).1

/-- Settles O58: a read leaves the engine alone, and what a cell reads as is a matter of the engine. -/
theorem samplesKeepTheirValue : Obligations.SamplesKeepTheirValue := by
  intro s t moves k hreads h
  have hstart : OnlyReadSince s { s with moves := moves } := ⟨⟨rfl, rfl, rfl⟩, hreads⟩
  obtain ⟨hsame, -⟩ := run_keeps (OnlyReadSince s) (step_keeps_onlyReadSince s) k _ t hstart h
  exact ⟨hsame, fun a => readImg_sameEngine a s t hsame⟩

/-- Settles O59: `Commit` leaves the word's own result below LEN, and the error entry LEN 0. -/
theorem shorterResultLeavesNoTail : Obligations.ShorterResultLeavesNoTail := by
  intro w s t a h
  refine ⟨readImg_beyond a t, fun ha => ?_⟩
  obtain ⟨xs, hr, rfl⟩ | ⟨c, -, rfl⟩ := issueWord_cases w s t h
  · have hlt : a.toNat < xs.length := by
      rw [← commit_len_toNat xs s (wordResult_length w xs hr)]
      exact ha
    have hv : xs[a.toNat]? = some xs[a.toNat] := List.getElem?_eq_getElem hlt
    have hread : Memory.read (commit xs s).img a.toNat = some xs[a.toNat] := by rw [commit_img, ofSamples_read, hv]
    exact ⟨_, readImg_written a _ _ ha hread, xs, hr, hv⟩
  · rw [raise_len] at ha
    exact absurd ha BitVec.not_lt_zero
end

section
/-! SUPPORT. Rounding (R81, R82): the rounded integer of a real exists once and rises with the real, and `roundRatio`
gives it; quantization of a rational amplitude (R84, R86, R87). -/

namespace Sys2Proof

/-! ### The rounding of the reals (R81) -/

theorem isRne_natCast (n : Nat) : IsRne (n : ℝ) n := isRne_of_lt _ _ (by linarith) (by linarith)

/-- Rounding is monotone: only a tie could come down by one, and a tie goes to the even integer. -/
theorem isRne_mono (x y : ℝ) (z v : Nat) (hxy : x ≤ y) (hz : IsRne x z) (hv : IsRne y v) : z ≤ v := by
  by_contra hlt
  have hstep : (v : ℝ) + 1 ≤ z := by exact_mod_cast Nat.lt_of_not_le hlt
  obtain ⟨hz1, hz2⟩ | ⟨hze, hzt⟩ := isRne_cases x z hz
  · obtain ⟨hv1, hv2⟩ | ⟨-, hvt | hvt⟩ := isRne_cases y v hv <;> linarith
  · obtain ⟨hv1, hv2⟩ | ⟨hve, hvt⟩ := isRne_cases y v hv
    · obtain hzt | hzt := hzt <;> linarith
    · have heq : (z : ℝ) = v + 1 := by obtain hzt | hzt := hzt <;> obtain hvt | hvt := hvt <;> linarith
      have : z = v + 1 := by exact_mod_cast heq
      omega

theorem isRne_unique (x : ℝ) (z v : Nat) (hz : IsRne x z) (hv : IsRne x v) : z = v :=
  le_antisymm (isRne_mono x x z v le_rfl hz hv) (isRne_mono x x v z le_rfl hv hz)

/-- What is at most 255 rounds to at most 255 (R87). -/
theorem isRne_le_full (x : ℝ) (z : Nat) (hx : x ≤ 255) (hz : IsRne x z) : z ≤ 255 :=
  isRne_mono x (255 : Nat) z 255 (by exact_mod_cast hx) hz (isRne_natCast 255)

namespace Machine

/-! ### The rounding of a ratio (R82) -/

theorem roundRatio_below (t : TieRule) (p q : Nat) (h : 2 * (p % q) < q) : roundRatio t p q = p / q := if_pos h

theorem roundRatio_above (t : TieRule) (p q : Nat) (h : q < 2 * (p % q)) : roundRatio t p q = p / q + 1 := by
  rw [roundRatio, if_neg (by omega), if_pos h]

theorem roundRatio_tie (t : TieRule) (p q : Nat) (h : 2 * (p % q) = q) : roundRatio t p q = breakTie t (p / q) := by
  rw [roundRatio, if_neg (by omega), if_neg (by omega)]

/-- The rounded ratio is the quotient or one more. -/
theorem roundRatio_bounds (t : TieRule) (p q : Nat) : p / q ≤ roundRatio t p q ∧ roundRatio t p q ≤ p / q + 1 := by
  have htie := breakTie_bounds t (p / q)
  obtain ⟨-, e⟩ | ⟨-, e⟩ | ⟨-, e⟩ := roundRatio_cases t p q <;> omega

/-- A ratio is its quotient and the remainder's share. -/
theorem ratio_eq_quotient_add (p q : Nat) (hq : 0 < q) :
    (p : ℝ) / q = (p / q : Nat) + ((p % q : Nat) : ℝ) / q := by
  have hd : (p : ℝ) = q * (p / q : Nat) + (p % q : Nat) := by exact_mod_cast (Nat.div_add_mod p q).symm
  have hq' : (q : ℝ) ≠ 0 := by exact_mod_cast hq.ne'
  field_simp
  linarith

/-- The engine's rounding of a ratio is the rounding of the real (R81, R82). -/
theorem isRne_roundRatio (p q : Nat) (hq : 0 < q) : IsRne ((p : ℝ) / q) (roundRatio .halfToEven p q) := by
  have hq' : (0 : ℝ) < q := by exact_mod_cast hq
  have hr0 : (0 : ℝ) ≤ ((p % q : Nat) : ℝ) / q := by positivity
  have hr1 : ((p % q : Nat) : ℝ) / q < 1 := (div_lt_one hq').mpr (by exact_mod_cast Nat.mod_lt p hq)
  rw [ratio_eq_quotient_add p q hq]
  obtain ⟨h, e⟩ | ⟨h, e⟩ | ⟨h, e⟩ := roundRatio_cases .halfToEven p q <;> rw [e]
  · have hr : ((p % q : Nat) : ℝ) / q < 1 / 2 := by
      rw [div_lt_div_iff₀ hq' two_pos]
      exact_mod_cast (by omega : p % q * 2 < 1 * q)
    exact isRne_of_lt _ _ (by linarith) (by linarith)
  · have hr : 1 / 2 < ((p % q : Nat) : ℝ) / q := by
      rw [div_lt_div_iff₀ two_pos hq']
      exact_mod_cast (by omega : 1 * q < p % q * 2)
    exact isRne_of_lt _ _ (by push_cast; linarith) (by push_cast; linarith)
  · have hr : ((p % q : Nat) : ℝ) / q = 1 / 2 := by
      rw [div_eq_div_iff hq'.ne' two_ne_zero]
      exact_mod_cast (by omega : p % q * 2 = 1 * q)
    rw [breakTie_halfToEven, hr]
    obtain heven | hodd := Nat.mod_two_eq_zero_or_one (p / q)
    · rw [heven]
      exact isRne_of_tie _ _ heven (.inl rfl)
    · rw [hodd]
      exact isRne_of_tie _ _ (by omega) (.inr (by push_cast; ring))

/-- A smaller ratio has a smaller quotient, or the same and a smaller remainder's share. -/
theorem ratio_le_cases (p q p' q' : Nat) (hq : 0 < q) (hq' : 0 < q') (h : p * q' ≤ p' * q) :
    p / q < p' / q' ∨ (p / q = p' / q' ∧ p % q * q' ≤ p' % q' * q) := by
  have hd := Nat.div_add_mod p q
  have hd' := Nat.div_add_mod p' q'
  have hle : p / q ≤ p' / q' := by
    rw [Nat.le_div_iff_mul_le hq']
    refine Nat.le_of_mul_le_mul_right ?_ hq
    calc p / q * q' * q = p / q * q * q' := Nat.mul_right_comm _ _ _
      _ ≤ p * q' := Nat.mul_le_mul_right _ (Nat.div_mul_le_self p q)
      _ ≤ p' * q := h
  refine hle.lt_or_eq.imp_right fun heq => ⟨heq, ?_⟩
  rw [← hd, ← hd', ← heq] at h
  linarith

/-- Rounding ratios is monotone under either tie rule (R87). -/
theorem roundRatio_mono (t : TieRule) (p q p' q' : Nat) (hq : 0 < q) (hq' : 0 < q') (h : p * q' ≤ p' * q) :
    roundRatio t p q ≤ roundRatio t p' q' := by
  obtain ⟨-, hup⟩ := roundRatio_bounds t p q
  obtain ⟨hlow, -⟩ := roundRatio_bounds t p' q'
  obtain hlt | ⟨heq, hrem⟩ := ratio_le_cases p q p' q' hq hq' h
  · omega
  · rw [← heq] at hlow
    obtain ⟨hr, e⟩ | ⟨hr, e⟩ | ⟨hr, e⟩ := roundRatio_cases t p q
    · omega
    · have hr' : q' < 2 * (p' % q') := by nlinarith
      rw [roundRatio_above t p' q' hr', ← heq]
      exact hup
    · have hr' : q' ≤ 2 * (p' % q') := by nlinarith
      obtain hr' | hr' := hr'.lt_or_eq
      · rw [roundRatio_above t p' q' hr', ← heq]
        exact hup
      · rw [e, roundRatio_tie t p' q' hr'.symm, heq]

/-- The two tie rules part exactly at a tie whose quotient is even (R81). -/
theorem roundRatio_rules_ne_iff (p q : Nat) :
    roundRatio .halfToEven p q ≠ roundRatio .halfAway p q ↔ 2 * (p % q) = q ∧ p / q % 2 = 0 := by
  by_cases h : 2 * (p % q) = q
  · rw [roundRatio_tie _ p q h, roundRatio_tie _ p q h, breakTie_halfToEven, breakTie_halfAway]
    omega
  · simp [roundRatio_tie_irrelevant .halfToEven .halfAway p q h, h]

/-! ### Quantization of an amplitude (R84) -/

/-- The amplitude as a real number (R84). -/
noncomputable def Amplitude.value (s : Amplitude) : ℝ :=
  if s.negative then -((s.mag.num : ℝ) / s.mag.den) else (s.mag.num : ℝ) / s.mag.den

theorem normalise_den (s : Amplitude) : (normalise s).den = 2 * s.mag.den := by
  unfold normalise
  split <;> rfl

theorem normalise_num_le (s : Amplitude) (h : s.mag.num ≤ s.mag.den) : (normalise s).num ≤ (normalise s).den := by
  unfold normalise
  split <;> dsimp only <;> omega

/-- The normalised amplitude is `(s + 1) / 2` of the reals (R84). -/
theorem normalise_real (s : Amplitude) (hd : 0 < s.mag.den) (h : s.mag.num ≤ s.mag.den) :
    ((normalise s).num : ℝ) / (normalise s).den = (s.value + 1) / 2 := by
  have hd' : (s.mag.den : ℝ) ≠ 0 := by exact_mod_cast hd.ne'
  unfold normalise Amplitude.value
  split
  · push_cast [Nat.cast_sub h]
    field_simp
    ring
  · push_cast
    field_simp
    ring

/-- Quantization scales the normalised amplitude to 255 and rounds once (R84). -/
theorem isRne_quantize (s : Amplitude) (hd : 0 < s.mag.den) (h : s.mag.num ≤ s.mag.den) :
    IsRne (255 * ((s.value + 1) / 2)) (quantize .halfToEven s) := by
  have hpos : 0 < (normalise s).den := by rw [normalise_den]; omega
  have hratio := isRne_roundRatio (255 * (normalise s).num) (normalise s).den hpos
  rwa [Nat.cast_mul, mul_div_assoc, normalise_real s hd h, Nat.cast_ofNat] at hratio

theorem quantize_le (t : TieRule) (s : Amplitude) (hd : 0 < s.mag.den) (h : s.mag.num ≤ s.mag.den) :
    quantize t s ≤ 255 :=
  roundRatio_le t _ _ 255 (by rw [normalise_den]; omega) (Nat.mul_le_mul_left 255 (normalise_num_le s h))

/-- The normalised values of opposite amplitudes add up to 1 (R86). -/
theorem normalise_opposite (f : Frac) (h : f.num ≤ f.den) :
    (normalise ⟨false, f⟩).num + (normalise ⟨true, f⟩).num = (normalise ⟨false, f⟩).den := by
  have hpos : normalise ⟨false, f⟩ = ⟨f.den + f.num, 2 * f.den⟩ := rfl
  have hneg : normalise ⟨true, f⟩ = ⟨f.den - f.num, 2 * f.den⟩ := rfl
  rw [hpos, hneg]
  dsimp only
  omega

/-- Off a tie, opposite amplitudes quantize to mirror values about mid-scale (R86). -/
theorem quantize_opposite (t : TieRule) (f : Frac) (hd : 0 < f.den) (h : f.num ≤ f.den)
    (htie : 2 * (255 * (normalise ⟨false, f⟩).num % (normalise ⟨false, f⟩).den) ≠ (normalise ⟨false, f⟩).den) :
    quantize t ⟨true, f⟩ + quantize t ⟨false, f⟩ = 255 := by
  have hpos : 0 < (normalise ⟨false, f⟩).den := by rw [normalise_den]; dsimp only; omega
  rw [Nat.add_comm]
  refine roundRatio_mirror t _ _ _ hpos ?_ htie
  rw [← Nat.mul_add, normalise_opposite f h]
  rfl

/-- The ratio `255d / 2d` is the tie between 127 and 128, which both rules round up. -/
theorem roundRatio_midscale (t : TieRule) (d : Nat) (hd : 0 < d) : roundRatio t (255 * d) (2 * d) = 128 := by
  have hsplit : 255 * d = d + 2 * d * 127 := by ring
  have hmod : 255 * d % (2 * d) = d := by rw [hsplit, Nat.add_mul_mod_self_left, Nat.mod_eq_of_lt (by omega)]
  have hdiv : 255 * d / (2 * d) = 127 := by
    rw [hsplit, Nat.add_mul_div_left _ _ (by omega), Nat.div_eq_of_lt (by omega)]
  rw [roundRatio_tie t _ _ (by rw [hmod]), hdiv]
  cases t <;> rfl

/-- Both signs of zero quantize to 128 (R84, R86). -/
theorem quantize_zero (t : TieRule) (s : Amplitude) (hd : 0 < s.mag.den) (h : s.mag.num = 0) : quantize t s = 128 := by
  have hnum : (normalise s).num = s.mag.den := by
    unfold normalise
    split <;> simp [h]
  rw [quantize, hnum, normalise_den]
  exact roundRatio_midscale t _ hd

end Machine

end Sys2Proof
end

section
/-! SUPPORT. The triangle's formula stays in range at even counts (R87, R104), and the samples of the sine block: the
real sine and the quarter sine compare alike with every switching amplitude, and the quarter sine quantizes to an
integer without a tie (R85, R101). -/

namespace Sys2Proof.Machine
open Real

/-! ### A block by its values, and the range of the triangle (R34, R87) -/

/-- A block is determined by its values at the indices below its length. -/
theorem tabulate_congr (n : Nat) (e e' : Nat → Nat) (h : ∀ k, k < n → e k = e' k) : tabulate n e = tabulate n e' :=
  List.map_congr_left fun k hk => congrArg toSample (h k (List.mem_range.mp hk))

theorem triValue_rising (t : TieRule) (n k : Nat) (h : k < n / 2) :
    triValue t n k = roundRatio t (k * 255) (n / 2 - 1) := if_pos h

theorem triValue_falling (t : TieRule) (n k : Nat) (h : n / 2 ≤ k) :
    triValue t n k = roundRatio t ((n - 1 - k) * 255) (n / 2 - 1) := if_neg (Nat.not_lt.mpr h)

/-- A ramp over `m` steps stays in range (R87). -/
theorem roundRatio_ramp_le (t : TieRule) (k m : Nat) (hm : 0 < m) (h : k ≤ m) : roundRatio t (k * 255) m ≤ 255 :=
  roundRatio_le t _ m 255 hm (by omega)

theorem triValue_le (t : TieRule) (n k : Nat) (h4 : 4 ≤ n) (heven : n % 2 = 0) (hk : k < n) :
    triValue t n k ≤ 255 := by
  obtain h | h := Nat.lt_or_ge k (n / 2)
  · rw [triValue_rising t n k h]
    exact roundRatio_ramp_le t k _ (by omega) (by omega)
  · rw [triValue_falling t n k h]
    exact roundRatio_ramp_le t _ _ (by omega) (by omega)

/-! ### The real sine and the quarter sine (R85) -/

/-- Two reals lie on the same side of a third, or both on it. -/
def CompareAlike (u v c : ℝ) : Prop := (u < c ∧ v < c) ∨ (c < u ∧ c < v) ∨ (u = c ∧ v = c)

/-- An increasing affine map keeps the comparison. -/
theorem compareAlike_scaled (u v c : ℝ) (h : CompareAlike u v c) :
    CompareAlike (255 * ((u + 1) / 2)) (255 * ((v + 1) / 2)) (255 * ((c + 1) / 2)) := by
  obtain ⟨hu, hv⟩ | ⟨hu, hv⟩ | ⟨hu, hv⟩ := h
  · exact .inl ⟨by linarith, by linarith⟩
  · exact .inr (.inl ⟨by linarith, by linarith⟩)
  · exact .inr (.inr ⟨by rw [hu], by rw [hv]⟩)

theorem compareAlike_neg (u v c : ℝ) (h : CompareAlike u v c) : CompareAlike (-u) (-v) (-c) := by
  obtain ⟨hu, hv⟩ | ⟨hu, hv⟩ | ⟨hu, hv⟩ := h
  · exact .inr (.inl ⟨neg_lt_neg hu, neg_lt_neg hv⟩)
  · exact .inl ⟨neg_lt_neg hu, neg_lt_neg hv⟩
  · exact .inr (.inr ⟨by rw [hu], by rw [hv]⟩)

/-- Amplitudes that compare alike with the switching amplitudes `2j/255` of their sign compare alike, once scaled, with
every switch level `M + 1/2`: the levels of the other sign they are on the near side of. -/
theorem compareAlike_switch_levels (u v : ℝ) (hu : 0 ≤ u) (hv : 0 ≤ v)
    (h : ∀ j : Nat, j ≤ 127 → CompareAlike u v (2 * j / 255)) (M : Nat) (hM : M < 255) :
    CompareAlike (255 * ((u + 1) / 2)) (255 * ((v + 1) / 2)) (M + 1 / 2) ∧
    CompareAlike (255 * ((-u + 1) / 2)) (255 * ((-v + 1) / 2)) (M + 1 / 2) := by
  constructor
  · obtain hlt | ⟨j, rfl⟩ := (Nat.lt_or_ge M 127).imp_right Nat.exists_eq_add_of_le
    · have hM' : (M : ℝ) + 1 ≤ 127 := by exact_mod_cast hlt
      exact .inr (.inl ⟨by linarith, by linarith⟩)
    · have hj := compareAlike_scaled u v _ (h j (by omega))
      convert hj using 1
      push_cast
      ring
  · obtain hlt | ⟨j, hj⟩ := (Nat.lt_or_ge 127 M).imp_right Nat.exists_eq_add_of_le
    · have hM' : (127 : ℝ) + 1 ≤ M := by exact_mod_cast hlt
      exact .inl ⟨by linarith, by linarith⟩
    · have hlevel := compareAlike_scaled _ _ _ (compareAlike_neg u v _ (h j (by omega)))
      convert hlevel using 1
      have hj' : (127 : ℝ) = M + j := by exact_mod_cast hj
      linarith

theorem quarterSine_den_pos (m n : Nat) : 0 < (quarterSine m n).den := by
  rw [quarterSine_den]
  decide

/-- The amplitude of a sample and the real sine of its phase compare alike, once scaled, with every switch level. -/
theorem sineAmplitude_compareAlike (n k : Nat) (hk : k < n) (M : Nat) (hM : M < 255) :
    CompareAlike (255 * ((sin (2 * π * k / n) + 1) / 2)) (255 * (((sineAmplitude n k).value + 1) / 2)) (M + 1 / 2) := by
  obtain ⟨m, hm, hsign⟩ := sineAmplitude_real n k hk
  obtain ⟨hphase0, hphase1⟩ := quarterPhase_bounds m n hm
  have hsin : 0 ≤ sin (quarterPhase m n) := sin_nonneg_of_nonneg_of_le_pi hphase0 (by linarith [pi_pos])
  have hfrac : (0 : ℝ) ≤ (quarterSine m n).num / (quarterSine m n).den := by positivity
  obtain ⟨hpos, hneg⟩ := compareAlike_switch_levels _ _ hsin hfrac (quarterSine_level m n (by omega) hm) M hM
  obtain ⟨hamp, hreal⟩ | ⟨hamp, hreal⟩ := hsign <;> rw [hamp, hreal]
  · exact hpos
  · exact hneg

theorem sineAmplitude_mag (n k : Nat) (hk : k < n) :
    0 < (sineAmplitude n k).mag.den ∧ (sineAmplitude n k).mag.num ≤ (sineAmplitude n k).mag.den := by
  obtain ⟨m, -, ⟨hamp, -⟩ | ⟨hamp, -⟩⟩ := sineAmplitude_real n k hk <;> rw [hamp] <;>
    exact ⟨quarterSine_den_pos m n, quarterSine_le_one m n⟩

theorem quantize_sine_le (t : TieRule) (n k : Nat) (hk : k < n) : quantize t (sineAmplitude n k) ≤ 255 :=
  quantize_le t _ (sineAmplitude_mag n k hk).1 (sineAmplitude_mag n k hk).2

/-- Every sample of the sine is the exactly rounded one (R85). -/
theorem isRne_sine (n k : Nat) (hk : k < n) :
    IsRne (255 * ((sin (2 * π * k / n) + 1) / 2)) (quantize .halfToEven (sineAmplitude n k)) := by
  obtain ⟨hden, hnum⟩ := sineAmplitude_mag n k hk
  have hlow := neg_one_le_sin (2 * π * k / n)
  have hhigh := sin_le_one (2 * π * k / n)
  exact isRne_of_same_side _ _ _ (isRne_quantize _ hden hnum) (by linarith) (by linarith)
    (sineAmplitude_compareAlike n k hk) (quantize_sine_le _ n k hk)

/-! ### The samples of a quarter -/

theorem quantize_quarterSine_zero (t : TieRule) (negative : Bool) (n : Nat) :
    quantize t ⟨negative, quarterSine 0 n⟩ = 128 :=
  quantize_zero t _ (quarterSine_den_pos 0 n) rfl

/-- A normalised amplitude that is an even number of 510ths is scaled to an integer. -/
theorem quantize_of_normalise (t : TieRule) (s : Amplitude) (m : Nat) (h : normalise s = ⟨2 * m, 510⟩) :
    quantize t s = m := by
  have hscale : Config.qmax * (2 * m) = m * 510 := by
    simp only [Config.qmax]
    omega
  rw [quantize, h, hscale]
  exact roundRatio_exact t m 510 (by decide)

/-- Above zero the quarter sine quantizes to an integer exactly. -/
theorem quantize_quarterSine_positive (t : TieRule) (m n : Nat) (hm : 0 < m) :
    quantize t ⟨false, quarterSine m n⟩ = 128 + highestLevel m n 127 := by
  refine quantize_of_normalise t _ _ ?_
  simp only [normalise, quarterSine_den, quarterSine_num m n hm, Bool.false_eq_true, if_false, Frac.mk.injEq, and_true]
  omega

/-- Below zero the quarter sine quantizes to an integer exactly. -/
theorem quantize_quarterSine_negative (t : TieRule) (m n : Nat) (hm : 0 < m) :
    quantize t ⟨true, quarterSine m n⟩ = 127 - highestLevel m n 127 := by
  refine quantize_of_normalise t _ _ ?_
  simp only [normalise, quarterSine_den, quarterSine_num m n hm, if_true, Frac.mk.injEq, and_true]
  omega

/-- No sample of a quarter depends on the tie rule (R85). -/
theorem quantize_quarterSine_tie_irrelevant (t t' : TieRule) (negative : Bool) (m n : Nat) :
    quantize t ⟨negative, quarterSine m n⟩ = quantize t' ⟨negative, quarterSine m n⟩ := by
  obtain rfl | hm := Nat.eq_zero_or_pos m
  · rw [quantize_quarterSine_zero, quantize_quarterSine_zero]
  · cases negative
    · rw [quantize_quarterSine_positive t m n hm, quantize_quarterSine_positive t' m n hm]
    · rw [quantize_quarterSine_negative t m n hm, quantize_quarterSine_negative t' m n hm]

theorem quantize_sine_tie_irrelevant (t t' : TieRule) (n k : Nat) (hk : k < n) :
    quantize t (sineAmplitude n k) = quantize t' (sineAmplitude n k) := by
  obtain ⟨m, -, ⟨hamp, -⟩ | ⟨hamp, -⟩⟩ := sineAmplitude_real n k hk <;> rw [hamp] <;>
    exact quantize_quarterSine_tie_irrelevant t t' _ m n

/-- Opposite samples of a quarter, away from zero, mirror about mid-scale (R86). -/
theorem quantize_quarterSine_mirror (t : TieRule) (m n : Nat) (hm : 0 < m) :
    quantize t ⟨true, quarterSine m n⟩ + quantize t ⟨false, quarterSine m n⟩ = 255 := by
  have hle := highestLevel_le m n 127
  rw [quantize_quarterSine_positive t m n hm, quantize_quarterSine_negative t m n hm]
  omega

end Sys2Proof.Machine
end

section
/-! PROOFS. The statements of 40_quantization.md, continued. -/

open Sys2Proof Sys2Proof.Machine

/-- Settles O28: the three branches of the rounding, and that their value is the rounded real. -/
theorem ratioRoundingIsNearestEven : Obligations.RatioRoundingIsNearestEven := by
  intro p q hq
  refine ⟨roundRatio_below _ p q, roundRatio_above _ p q, fun htie => ⟨?_, by omega⟩, isRne_roundRatio p q hq⟩
  rw [roundRatio_tie _ p q htie, breakTie_halfToEven]

/-- Settles O29: a ratio that is not larger has no larger quotient, nor a larger remainder's share at the same one; and
a real has one rounded integer. -/
theorem roundingIsMonotoneAndUnique : Obligations.RoundingIsMonotoneAndUnique :=
  ⟨roundRatio_mono, fun p q z hq hz => isRne_unique _ _ z (isRne_roundRatio p q hq) hz⟩

/-- Settles O30: off a tie the rules agree, and at a tie one rounds to even and the other up. -/
theorem tieRulesDifferOnEvenTies : Obligations.TieRulesDifferOnEvenTies := by
  intro p q hq
  refine ⟨roundRatio_rules_ne_iff p q, fun htie heven => ⟨?_, ?_⟩⟩
  · rw [roundRatio_tie _ p q htie, breakTie_halfToEven, heven, Nat.add_zero]
  · rw [roundRatio_tie _ p q htie, breakTie_halfAway]

/-- Settles O31: rounding is monotone and fixes 0 and 255; the odd count 5 is evaluated. -/
theorem roundedValuesAreSamples : Obligations.RoundedValuesAreSamples := by
  refine ⟨fun x z _ hx hz => isRne_le_full x z hx hz, ⟨?_, ?_⟩, fun x y z v _ hxy hz hv => isRne_mono x y z v hxy hz hv,
    fun s z _ hs hz => isRne_le_full _ z (by linarith) hz, roundRatio_ramp_le, quantize_sine_le, triValue_le,
    fun t => ?_⟩
  · exact_mod_cast isRne_natCast 0
  · exact_mod_cast isRne_natCast 255
  · cases t <;> decide

/-- Settles O33: the normalised fraction is the normalised real, and rounding its multiple by 255 is exact. -/
theorem quantizeIsNormaliseScaleRound : Obligations.QuantizeIsNormaliseScaleRound :=
  ⟨fun f hd h => ⟨isRne_quantize ⟨false, f⟩ hd h, isRne_quantize ⟨true, f⟩ hd h⟩, rfl, rfl, rfl, rfl, rfl⟩

/-- Settles O34: the two ratios add up to 255, so off a tie the roundings do; at zero both are the midscale tie. -/
theorem oppositeAmplitudesMirror : Obligations.OppositeAmplitudesMirror :=
  fun t f hd h => ⟨⟨normalise_opposite f h, rfl⟩, quantize_opposite t f hd h,
    fun hzero => ⟨quantize_zero t ⟨true, f⟩ hd hzero, quantize_zero t ⟨false, f⟩ hd hzero⟩⟩

/-- Settles O35: the real sine and the model's amplitude lie on the same side of every switch level. -/
theorem sineSampleIsExactlyRounded : Obligations.SineSampleIsExactlyRounded := isRne_sine

/-- Settles O37: off zero the quarter sine quantizes to an integer, and at zero both rules give 128. -/
theorem sineBlockIgnoresTieRule : Obligations.SineBlockIgnoresTieRule := by
  intro t t' n
  exact congrArg Except.ok (tabulate_congr n _ _ (quantize_sine_tie_irrelevant t t' n))
end

section
/-! SUPPORT. A command that commits a block and a command that fails; the samples of each block by their formulas
(R101 to R104), and the symmetries of the sine block (R101). -/

namespace Sys2Proof.Machine

/-! ### Committing a block, and failing -/

theorem countValue_le (n : Count) : countValue n ≤ 262140 := by
  have := n.isLt
  rw [countValue]
  omega

/-- What a success leaves says nothing of samples from the length on. -/
theorem committed_congr (m : Nat) (f g : Nat → Sample) (s t : State) (hfg : ∀ a, a < m → f a = g a)
    (h : Committed m f s t) : Committed m g s t := by
  obtain ⟨hread, hrest⟩ := h
  refine ⟨fun a => ?_, hrest⟩
  rw [hread]
  split
  · next ha => rw [hfg a ha]
  · rfl

/-- A command whose result is a block of `n` samples commits that block (R100). -/
theorem exec_tabulate (i : Instr) (n : Count) (e : Nat → Nat) (s : State)
    (h : commandResult i = .ok (tabulate (countValue n) e)) :
    ∃ t, exec i s = .next t ∧ Committed n.toNat (fun k => toSample (e k)) s t := by
  have hcommitted := commit_committed (tabulate (countValue n) e) s (by rw [tabulate_length]; exact countValue_le n)
  rw [tabulate_length] at hcommitted
  exact ⟨_, exec_ok i _ s h, committed_congr _ _ _ s _ (fun a ha => tabulate_getD _ e a ha 0) hcommitted⟩

/-- A command that raises a cause ends in the error entry and leaves nothing (R152). -/
theorem finish_raises_failed (i : Instr) (c : Cause) (s : State) (h : Raises c i) :
    Failed c s (finish (commandResult i) s) := by
  rw [(commandResult_error_iff i c).mpr h]
  exact raise_failed c s

theorem exec_raises_failed (i : Instr) (c : Cause) (s : State) (h : Raises c i) :
    ∃ t, exec i s = .next t ∧ Failed c s t :=
  ⟨_, exec_eq i s, finish_raises_failed i c s h⟩

/-! ### The samples of a block (R34) -/

theorem blockSample_of_tabulate (sh : Shape) (n k : Nat) (e : Nat → Nat)
    (h : gen Config.tieRule sh n = .ok (tabulate n e)) (hk : k < n) : blockSample sh n k = toSample (e k) := by
  simp only [blockSample, h]
  exact tabulate_getD n e k hk 0

theorem toSample_toNat (v : Nat) (h : v ≤ 255) : (toSample v).toNat = v := by
  rw [toSample, BitVec.toNat_ofNat, Nat.mod_eq_of_lt (by omega)]

theorem blockSample_sine (n k : Nat) (hk : k < n) :
    blockSample .sine n k = toSample (quantize Config.tieRule (sineAmplitude n k)) :=
  blockSample_of_tabulate .sine n k _ (sineBlock_ok _ n) hk

theorem blockSample_square (n k : Nat) (hk : k < n) :
    blockSample .square n k = toSample (if k < n / 2 then 255 else 0) :=
  blockSample_of_tabulate .square n k _ (squareBlock_ok n) hk

theorem sawBlock_ok (t : TieRule) (n : Nat) (h : 2 ≤ n) :
    sawBlock t n = .ok (tabulate n fun k => roundRatio t (k * 255) (n - 1)) :=
  if_neg (Nat.not_lt.mpr h)

theorem triBlock_ok (t : TieRule) (n : Nat) (h : 4 ≤ n) (heven : n % 2 = 0) :
    triBlock t n = .ok (tabulate n (triValue t n)) := by
  obtain ⟨hsmall, -⟩ | ⟨-, hodd, -⟩ | ⟨-, -, e⟩ := triBlock_cases t n
  · omega
  · omega
  · exact e

theorem blockSample_saw (n k : Nat) (h : 2 ≤ n) (hk : k < n) :
    blockSample .sawtooth n k = toSample (roundRatio Config.tieRule (k * 255) (n - 1)) :=
  blockSample_of_tabulate .sawtooth n k _ (sawBlock_ok _ n h) hk

theorem blockSample_tri (n k : Nat) (h : 4 ≤ n) (heven : n % 2 = 0) (hk : k < n) :
    blockSample .triangle n k = toSample (triValue Config.tieRule n k) :=
  blockSample_of_tabulate .triangle n k _ (triBlock_ok _ n h heven) hk

/-! ### The sine block: quadrants and symmetries (R101) -/

theorem blockSample_sine_toNat (n k : Nat) (hk : k < n) :
    (blockSample .sine n k).toNat = quantize Config.tieRule (sineAmplitude n k) := by
  rw [blockSample_sine n k hk, toSample_toNat _ (quantize_sine_le _ n k hk)]

/-- The amplitude in quadrant `q` at `r/n` of its width: the sine rises in quadrants 0 and 2, falls in 1 and 3, and is
negative in 2 and 3. -/
def quadrantAmplitude (n r : Nat) : Nat → Amplitude
  | 0 => ⟨false, quarterSine r n⟩
  | 1 => ⟨false, quarterSine (n - r) n⟩
  | 2 => ⟨true, quarterSine r n⟩
  | _ => ⟨true, quarterSine (n - r) n⟩

theorem sineAmplitude_of_quadrant (n k q r : Nat) (hr : r < n) (h : 4 * k = n * q + r) :
    sineAmplitude n k = quadrantAmplitude n r q := by
  have hdiv : 4 * k / n = q := by rw [h, Nat.mul_add_div (by omega), Nat.div_eq_of_lt hr, Nat.add_zero]
  have hmod : 4 * k % n = r := by rw [h, Nat.mul_add_mod, Nat.mod_eq_of_lt hr]
  rw [sineAmplitude, hdiv, hmod]
  match q with
  | 0 => rfl
  | 1 => rfl
  | 2 => rfl
  | q + 3 => rfl

/-- Every index below the count lies in one of the four quadrants. -/
theorem exists_quadrant (n k : Nat) (hk : k < n) : ∃ q r, q < 4 ∧ r < n ∧ 4 * k = n * q + r :=
  ⟨4 * k / n, 4 * k % n, Nat.div_lt_of_lt_mul (by omega), Nat.mod_lt _ (by omega), (Nat.div_add_mod _ _).symm⟩

/-- Samples `k` and `n - k` have opposite amplitudes at one place of a quarter, which is 0 only where the sine is. -/
theorem sineAmplitude_opposite (n k : Nat) (h0 : 0 < k) (hk : k < n) (hhalf : 2 * k ≠ n) :
    ∃ m negative, 0 < m ∧ sineAmplitude n k = ⟨negative, quarterSine m n⟩ ∧
      sineAmplitude n (n - k) = ⟨!negative, quarterSine m n⟩ := by
  obtain ⟨q, r, hq, hr, h⟩ := exists_quadrant n k hk
  rw [sineAmplitude_of_quadrant n k q r hr h]
  obtain rfl | hr0 := Nat.eq_zero_or_pos r
  · have hopp := sineAmplitude_of_quadrant n (n - k) (4 - q) 0 hr (by interval_cases q <;> omega)
    rw [hopp]
    interval_cases q
    · omega
    · exact ⟨n - 0, false, hr, rfl, rfl⟩
    · omega
    · exact ⟨n - 0, true, hr, rfl, rfl⟩
  · have hopp := sineAmplitude_of_quadrant n (n - k) (3 - q) (n - r) (by omega)
      (by interval_cases q <;> omega)
    have hback : n - (n - r) = r := by omega
    rw [hopp]
    interval_cases q
    · exact ⟨r, false, hr0, rfl, by simp [quadrantAmplitude, hback]⟩
    · exact ⟨n - r, false, by omega, rfl, rfl⟩
    · exact ⟨r, true, hr0, rfl, by simp [quadrantAmplitude, hback]⟩
    · exact ⟨n - r, true, by omega, rfl, rfl⟩

/-- Samples `k` and `n - k` mirror about mid-scale, except where the sine is 0 (R101). -/
theorem blockSample_sine_mirror (n k : Nat) (h0 : 0 < k) (hk : k < n) (hhalf : 2 * k ≠ n) :
    (blockSample .sine n (n - k)).toNat + (blockSample .sine n k).toNat = 255 := by
  obtain ⟨m, negative, hm, hamp, hopp⟩ := sineAmplitude_opposite n k h0 hk hhalf
  rw [blockSample_sine_toNat n k hk, blockSample_sine_toNat n (n - k) (by omega), hamp, hopp]
  have hmirror := quantize_quarterSine_mirror Config.tieRule m n hm
  cases negative
  · exact hmirror
  · rw [Nat.add_comm]
    exact hmirror

/-- Samples of equal real sines are equal: the exactly rounded sample is one. -/
theorem blockSample_sine_of_sin_eq (n j k : Nat) (hj : j < n) (hk : k < n)
    (h : Real.sin (2 * Real.pi * j / n) = Real.sin (2 * Real.pi * k / n)) :
    blockSample .sine n j = blockSample .sine n k := by
  have hrne := isRne_sine n j hj
  rw [h] at hrne
  rw [blockSample_sine n j hj, blockSample_sine n k hk]
  exact congrArg toSample (isRne_unique _ _ _ hrne (isRne_sine n k hk))

/-- Reflection about the quarter (R101): the phases of `n/2 - k` and `k` add up to `π`. -/
theorem blockSample_sine_reflect (n k : Nat) (heven : n % 2 = 0) (hn : 0 < n) (hk : k ≤ n / 2) :
    blockSample .sine n (n / 2 - k) = blockSample .sine n k := by
  refine blockSample_sine_of_sin_eq n _ k (by omega) (by omega) ?_
  have hn' : (n : ℝ) ≠ 0 := by exact_mod_cast hn.ne'
  have hsum : ((n / 2 - k : Nat) : ℝ) = n / 2 - k := by
    rw [Nat.cast_sub hk, Nat.cast_div (Nat.dvd_of_mod_eq_zero heven) two_ne_zero, Nat.cast_ofNat]
  have hphase : 2 * Real.pi * (n / 2 - k : Nat) / n = Real.pi - 2 * Real.pi * k / n := by
    rw [hsum]
    field_simp
  rw [hphase, Real.sin_pi_sub]

/-- At the start of a quadrant the sample is 128, 255, 128 and 0 in turn (R101). -/
theorem blockSample_sine_corner (n k q : Nat) (hk : k < n) (h : 4 * k = n * q) :
    blockSample .sine n k = toSample (quantize Config.tieRule (quadrantAmplitude n 0 q)) := by
  rw [blockSample_sine n k hk, sineAmplitude_of_quadrant n k q 0 (by omega) h]

theorem quantize_quadrant_zero (t : TieRule) (n : Nat) : quantize t (quadrantAmplitude n 0 0) = 128 :=
  quantize_quarterSine_zero t false n

theorem quantize_quadrant_one (t : TieRule) (n : Nat) (hn : 0 < n) : quantize t (quadrantAmplitude n 0 1) = 255 := by
  have hfull : quadrantAmplitude n 0 1 = ⟨false, quarterSine n n⟩ := rfl
  rw [hfull, quarterSine_full n hn]
  cases t <;> rfl

theorem quantize_quadrant_two (t : TieRule) (n : Nat) : quantize t (quadrantAmplitude n 0 2) = 128 :=
  quantize_quarterSine_zero t true n

theorem quantize_quadrant_three (t : TieRule) (n : Nat) (hn : 0 < n) : quantize t (quadrantAmplitude n 0 3) = 0 := by
  have hfull : quadrantAmplitude n 0 3 = ⟨true, quarterSine n n⟩ := rfl
  rw [hfull, quarterSine_full n hn]
  cases t <;> rfl

/-! ### The sawtooth and the triangle (R103, R104) -/

/-- A rounded ramp is the rounded real ramp (R103). -/
theorem isRne_ramp (k m : Nat) (hm : 0 < m) : IsRne ((k : ℝ) * 255 / m) (roundRatio .halfToEven (k * 255) m) := by
  have h := isRne_roundRatio (k * 255) m hm
  rwa [Nat.cast_mul, Nat.cast_ofNat] at h

theorem roundRatio_ramp_zero (t : TieRule) (m : Nat) (hm : 0 < m) : roundRatio t (0 * 255) m = 0 := by
  have h := roundRatio_exact t 0 m hm
  rwa [Nat.zero_mul] at h

theorem roundRatio_ramp_full (t : TieRule) (m : Nat) (hm : 0 < m) : roundRatio t (m * 255) m = 255 := by
  rw [Nat.mul_comm]
  exact roundRatio_exact t 255 m hm

theorem roundRatio_ramp_mono (t : TieRule) (j k m : Nat) (hm : 0 < m) (h : j ≤ k) :
    roundRatio t (j * 255) m ≤ roundRatio t (k * 255) m :=
  roundRatio_mono t _ m _ m hm hm (Nat.mul_le_mul_right m (Nat.mul_le_mul_right 255 h))

/-- The falling half of the triangle is its rising half read backwards (R104). -/
theorem triValue_mirror (t : TieRule) (n k : Nat) (heven : n % 2 = 0) (hk : k < n) :
    triValue t n k = triValue t n (n - 1 - k) := by
  obtain h | h := Nat.lt_or_ge k (n / 2)
  · rw [triValue_rising t n k h, triValue_falling t n _ (by omega)]
    congr 2
    omega
  · rw [triValue_falling t n k h, triValue_rising t n _ (by omega)]

/-- The rising ramp over 127 steps: `255 = 2·127 + 1`, so the remainder is the index (R107). -/
theorem roundRatio_ramp_127 (t : TieRule) (k : Nat) (h : k ≤ 127) :
    roundRatio t (k * 255) 127 = if k ≤ 63 then 2 * k else 2 * k + 1 := by
  have hsplit : k * 255 = k + 127 * (2 * k) := by ring
  have hmod (hk : k < 127) : k * 255 % 127 = k := by rw [hsplit, Nat.add_mul_mod_self_left, Nat.mod_eq_of_lt hk]
  have hdiv (hk : k < 127) : k * 255 / 127 = 2 * k := by
    rw [hsplit, Nat.add_mul_div_left _ _ (by decide), Nat.div_eq_of_lt hk, Nat.zero_add]
  obtain hlow | hhigh | rfl : k ≤ 63 ∨ 63 < k ∧ k < 127 ∨ k = 127 := by omega
  · rw [if_pos hlow, roundRatio_below t _ _ (by rw [hmod (by omega)]; omega), hdiv (by omega)]
  · rw [if_neg (by omega), roundRatio_above t _ _ (by rw [hmod hhigh.2]; omega), hdiv hhigh.2]
  · exact roundRatio_ramp_full t 127 (by decide)

/-- The default triangle is the ramp over 127 steps up to the half, and its mirror from there on (R107). -/
theorem triValue_256 (t : TieRule) (k : Nat) (hk : k < 256) :
    triValue t 256 k =
      if k ≤ 63 then 2 * k else if k ≤ 127 then 2 * k + 1
      else if k ≤ 191 then 2 * (255 - k) + 1 else 2 * (255 - k) := by
  obtain h | h := Nat.lt_or_ge k 128
  · rw [triValue_rising t 256 k h, roundRatio_ramp_127 t k (by omega), if_pos (show k ≤ 127 by omega)]
  · rw [triValue_falling t 256 k h, roundRatio_ramp_127 t _ (by omega), if_neg (show ¬ k ≤ 63 by omega),
      if_neg (show ¬ k ≤ 127 by omega)]
    split <;> split <;> omega

/-- The counts for which a generator makes a block (R106). -/
theorem gen_ok (t : TieRule) (sh : Shape) (n : Nat) (hsaw : sh = .sawtooth → 2 ≤ n)
    (htri : sh = .triangle → 4 ≤ n ∧ n % 2 = 0) : ∃ xs, gen t sh n = .ok xs ∧ xs.length = n := by
  have hgen : ∃ e, gen t sh n = .ok (tabulate n e) := by
    cases sh with
    | sine => exact ⟨_, sineBlock_ok t n⟩
    | square => exact ⟨_, squareBlock_ok n⟩
    | sawtooth => exact ⟨_, sawBlock_ok t n (hsaw rfl)⟩
    | triangle => exact ⟨_, triBlock_ok t n (htri rfl).1 (htri rfl).2⟩
  obtain ⟨e, he⟩ := hgen
  exact ⟨_, he, tabulate_length n e⟩

end Sys2Proof.Machine
end

section
/-! PROOFS. The statements of 41_generators.md, continued. -/

open Sys2Proof Sys2Proof.Machine

/-- Settles O36: the block is committed, and each of its samples is the exactly rounded one. -/
theorem genSineLeavesExactBlock : Obligations.GenSineLeavesExactBlock := by
  intro n s
  obtain ⟨t, hexec, hcommitted⟩ := exec_tabulate (.genSine n) n _ s (sineBlock_ok _ _)
  exact ⟨t, hexec, _, fun k hk => ⟨quantize_sine_le _ _ k hk, isRne_sine _ k hk⟩, hcommitted⟩

/-- Settles O38: the mirror by the quadrants of `k` and `n - k`, the reflection by the real sine. -/
theorem sineBlockSymmetries : Obligations.SineBlockSymmetries :=
  ⟨blockSample_sine_mirror, blockSample_sine_reflect⟩

/-- Settles O39: each corner is the start of a quadrant. -/
theorem sineBlockCorners : Obligations.SineBlockCorners := by
  refine ⟨fun n hn => ?_, fun n hn heven => ?_, fun n hn hfour => ⟨?_, ?_⟩, rfl, rfl, rfl⟩
  · rw [blockSample_sine_corner n 0 0 hn rfl, quantize_quadrant_zero]
    rfl
  · rw [blockSample_sine_corner n (n / 2) 2 (by omega) (by omega), quantize_quadrant_two]
    rfl
  · rw [blockSample_sine_corner n (n / 4) 1 (by omega) (by omega), quantize_quadrant_one _ n hn]
    rfl
  · rw [blockSample_sine_corner n (3 * n / 4) 3 (by omega) (by omega), quantize_quadrant_three _ n hn]
    rfl

/-- Settles O40: the model's block, evaluated. -/
theorem defaultSineBlockIsTheTable : Obligations.DefaultSineBlockIsTheTable := by
  unfold Obligations.DefaultSineBlockIsTheTable
  decide +kernel

/-- Settles O41: the block is committed, and stored sample by sample. -/
theorem genSquareLeavesHalfHigh : Obligations.GenSquareLeavesHalfHigh := by
  intro n s
  obtain ⟨t, hexec, hcommitted⟩ := exec_tabulate (.genSquare n) n _ s (squareBlock_ok _)
  exact ⟨t, hexec, committed_congr _ _ _ s t (fun k _ => apply_ite toSample (k < n.toNat / 2) 255 0) hcommitted⟩

/-- Settles O42: the block is committed, and each of its samples is the rounded ratio. -/
theorem genSawLeavesRoundedRamp : Obligations.GenSawLeavesRoundedRamp := by
  intro n s hn
  obtain ⟨t, hexec, hcommitted⟩ := exec_tabulate (.genSaw n) n _ s (sawBlock_ok _ _ hn)
  refine ⟨t, hexec, _, fun k hk => ⟨?_, ?_⟩, hcommitted⟩
  · exact roundRatio_ramp_le _ k _ (Nat.sub_pos_of_lt hn) (Nat.le_sub_one_of_lt hk)
  · have hcast : ((n.toNat - 1 : Nat) : ℝ) = (n.toNat : ℝ) - 1 := by rw [Nat.cast_sub (by omega), Nat.cast_one]
    rw [← hcast]
    exact isRne_ramp k _ (Nat.sub_pos_of_lt hn)

/-- Settles O43: the sawtooth raises COUNT_TOO_SMALL at those counts. -/
theorem genSawTooSmallFails : Obligations.GenSawTooSmallFails :=
  fun n s hn => exec_raises_failed (.genSaw n) .countTooSmall s ⟨hn, rfl⟩

/-- Settles O44: the ends of the ramp are exact, and rounding is monotone. -/
theorem sawRisesFromZeroToFull : Obligations.SawRisesFromZeroToFull := by
  intro n hn
  have hm : 0 < n - 1 := by omega
  refine ⟨?_, ?_, fun j k hjk hk => ?_⟩
  · rw [blockSample_saw n 0 hn (by omega), roundRatio_ramp_zero _ _ hm]
    rfl
  · rw [blockSample_saw n (n - 1) hn (by omega), roundRatio_ramp_full _ _ hm]
    rfl
  · rw [blockSample_saw n j hn (by omega), blockSample_saw n k hn hk,
      toSample_toNat _ (roundRatio_ramp_le _ j _ hm (by omega)),
      toSample_toNat _ (roundRatio_ramp_le _ k _ hm (by omega))]
    exact roundRatio_ramp_mono _ j k _ hm hjk

/-- Settles O45: the block is committed, and each half is a rounded ramp. -/
theorem genTriLeavesRiseAndFall : Obligations.GenTriLeavesRiseAndFall := by
  intro n s hn heven
  have hm : 0 < n.toNat / 2 - 1 := by omega
  have hsteps : ((n.toNat / 2 - 1 : Nat) : ℝ) = (n.toNat / 2 : Nat) - 1 := by
    rw [Nat.cast_sub (by omega), Nat.cast_one]
  obtain ⟨t, hexec, hcommitted⟩ := exec_tabulate (.genTri n) n _ s (triBlock_ok _ _ hn heven)
  refine ⟨t, hexec, _, fun k hk => ⟨triValue_le _ _ k hn heven hk, fun h => ?_, fun h => ?_⟩, hcommitted⟩
  · rw [triValue_rising _ _ k h, ← hsteps]
    exact isRne_ramp k _ hm
  · have hindex : (n.toNat : ℝ) - 1 - k = (n.toNat - 1 - k : Nat) := by
      rw [Nat.cast_sub (by omega), Nat.cast_sub (by omega), Nat.cast_one]
    rw [triValue_falling _ _ k h, ← hsteps, hindex]
    exact isRne_ramp _ _ hm

/-- Settles O46: the triangle raises the one cause or the other at those counts. -/
theorem genTriRejectsCounts : Obligations.GenTriRejectsCounts :=
  fun n s => ⟨fun hn => exec_raises_failed (.genTri n) .countTooSmall s (.inl ⟨hn, rfl⟩),
    fun hn hodd => exec_raises_failed (.genTri n) .countOdd s (.inr ⟨hodd, hn, rfl⟩)⟩

/-- Settles O47: the ends and peaks are exact ramp ends, and the mirror exchanges the two halves. -/
theorem triangleMirrorsItsRisingSaw : Obligations.TriangleMirrorsItsRisingSaw := by
  intro n hn heven
  have hm : 0 < n / 2 - 1 := by omega
  have hmirror (k : Nat) (hk : k < n) : blockSample .triangle n k = blockSample .triangle n (n - 1 - k) := by
    rw [blockSample_tri n k hn heven hk, blockSample_tri n (n - 1 - k) hn heven (by omega),
      triValue_mirror _ n k heven hk]
  have hfirst : blockSample .triangle n 0 = 0 := by
    rw [blockSample_tri n 0 hn heven (by omega), triValue_rising _ n 0 (by omega), roundRatio_ramp_zero _ _ hm]
    rfl
  have hpeak : blockSample .triangle n (n / 2 - 1) = 255 := by
    rw [blockSample_tri n _ hn heven (by omega), triValue_rising _ n _ (by omega), roundRatio_ramp_full _ _ hm]
    rfl
  refine ⟨hfirst, hpeak, ?_, ?_, hmirror, fun k hk => ?_⟩
  · rw [hmirror _ (by omega), ← hpeak]
    congr 1
    omega
  · rw [hmirror _ (by omega), Nat.sub_self, hfirst]
  · rw [blockSample_tri n k hn heven (by omega), triValue_rising _ n k hk, blockSample_saw _ k (by omega) hk]

/-- Settles O48: the ramp over 127 steps and its mirror. -/
theorem defaultTriangleClosedForm : Obligations.DefaultTriangleClosedForm := triValue_256

/-- Settles O49: every generator command is `finish` of its block; the counts up to 4 are evaluated, and from 5 on the
triangle's parity decides. -/
theorem generatorOutcomesByCount : Obligations.GeneratorOutcomesByCount := by
  refine ⟨fun sh n s => ?_, by decide +kernel, by decide +kernel, by decide +kernel, by decide +kernel,
    by decide +kernel, fun n hn hodd => ⟨fun sh hsh => ?_, ?_⟩, fun n hn heven sh => ?_⟩
  · rw [exec_eq, commandResult_ofShape]
    rfl
  · exact gen_ok _ sh n (fun _ => by omega) fun htri => absurd htri hsh
  · exact (triBlock_error_iff _ n _).mpr (.inr ⟨hodd, hn, rfl⟩)
  · exact gen_ok _ sh n (fun _ => by omega) fun _ => ⟨by omega, heven⟩
end

section
/-! SUPPORT. A ROM Image read by address, with its blocks at their bases (R41, R124), and the image of the default
command (R121). -/

namespace Sys2Proof.Machine

/-! ### The image by address -/

theorem ofCode_of_code_toNat (sh : Shape) (b : Nat) (h : sh.code.toNat = b) : Shape.ofCode (BitVec.ofNat 2 b) = sh := by
  rw [← h, BitVec.ofNat_toNat, BitVec.setWidth_eq, shape_ofCode_code]

/-- Address `i` is sample `i mod n` of the block whose code is `i div n` (R41). -/
theorem romImage_sample (nb : BlockCount) (n : Nat) (xs : List Sample) (i : Nat)
    (h : romImage Config.tieRule nb n = .ok xs) (hi : i < 4 * n) :
    xs[i]? = some (blockSample (Shape.ofCode (BitVec.ofNat 2 (i / n))) n (i % n)) := by
  obtain ⟨sh, hsh, hread⟩ := romImage_address nb n xs i h hi
  rw [hread, ofCode_of_code_toNat sh _ hsh]

/-- `BUILD_ROM` with a legal block size commits the whole image (R120). -/
theorem finish_buildRom_committed (bs : Count) (s : State) (h4 : 4 ≤ bs.toNat) (heven : bs.toNat % 2 = 0) :
    Committed (4 * bs.toNat)
      (fun i => blockSample (Shape.ofCode (BitVec.ofNat 2 (i / bs.toNat))) bs.toNat (i % bs.toNat)) s
      (finish (commandResult (.buildRom 4 bs)) s) := by
  obtain ⟨xs, hrom⟩ := romImage_legal_ok Config.tieRule bs.toNat h4 heven
  have hresult : commandResult (.buildRom 4 bs) = .ok xs := hrom
  have hcommitted := commit_committed xs s (commandResult_length _ xs hresult)
  rw [romImage_length _ 4 _ xs hrom] at hcommitted
  rw [hresult]
  refine committed_congr _ _ _ s _ (fun i hi => ?_) hcommitted
  rw [List.getD_eq_getElem?_getD, romImage_sample 4 _ xs i hrom hi, Option.getD_some]

/-! ### The default image (R121) -/

/-- The default command commits an image from every state. -/
theorem exec_default (s : State) :
    ∃ xs, romImage Config.tieRule 4 256 = .ok xs ∧ exec (.buildRom 4 256) s = .next (commit xs s) := by
  obtain ⟨xs, hrom⟩ := romImage_legal_ok Config.tieRule 256 (by decide) rfl
  exact ⟨xs, hrom, exec_ok _ xs s hrom⟩

/-- Each block of the default image stands at its base. -/
theorem exec_default_read (s t : State) (h : exec (.buildRom 4 256) s = .next t) (sh : Shape) (k : Nat) (hk : k < 256) :
    Memory.read t.img (sh.code.toNat * 256 + k) = some (blockSample sh 256 k) := by
  obtain ⟨xs, hrom, hexec⟩ := exec_default s
  cases hexec.symm.trans h
  rw [commit_img, ofSamples_read, romImage_block 4 256 xs sh k hrom hk]

/-- The upper two bits of a ten-bit address are the shape, the lower eight the offset (R41). -/
theorem exec_default_read_bits (s t : State) (h : exec (.buildRom 4 256) s = .next t) (i : BitVec 10) :
    Memory.read t.img i.toNat =
      some (blockSample (Shape.ofCode (i.extractLsb' 8 2)) 256 (i.extractLsb' 0 8).toNat) := by
  have hread := exec_default_read s t h (Shape.ofCode (i.extractLsb' 8 2)) (i.extractLsb' 0 8).toNat (BitVec.isLt _)
  have haddress : (i.extractLsb' 8 2).toNat * 256 + (i.extractLsb' 0 8).toNat = i.toNat := by
    have hi := i.isLt
    rw [BitVec.extractLsb'_toNat, BitVec.extractLsb'_toNat, Nat.shiftRight_eq_div_pow, Nat.shiftRight_eq_div_pow]
    omega
  rwa [shape_code_ofCode, haddress] at hread

theorem exec_default_len (s t : State) (h : exec (.buildRom 4 256) s = .next t) :
    t.len = 1024 ∧ ∀ a, 1024 ≤ a → Memory.read t.img a = none := by
  obtain ⟨xs, hrom, hexec⟩ := exec_default s
  cases hexec.symm.trans h
  have hlen : xs.length = 1024 := romImage_length _ 4 256 xs hrom
  refine ⟨by rw [commit_len, hlen]; rfl, fun a ha => ?_⟩
  rw [commit_img, ofSamples_read, List.getElem?_eq_none (by omega)]

theorem exec_default_square (s t : State) (h : exec (.buildRom 4 256) s = .next t) (k : Nat) (hk : k < 256) :
    Memory.read t.img (256 + k) = some (toSample (if k < 128 then 255 else 0)) := by
  have hread := exec_default_read s t h .square k hk
  rwa [blockSample_square 256 k hk] at hread

/-- Over 255 steps the ramp is exact. -/
theorem roundRatio_ramp_255 (t : TieRule) (k : Nat) : roundRatio t (k * 255) (256 - 1) = k :=
  roundRatio_exact t k 255 (by decide)

theorem exec_default_saw (s t : State) (h : exec (.buildRom 4 256) s = .next t) (k : Nat) (hk : k < 256) :
    Memory.read t.img (512 + k) = some (toSample k) := by
  have hread := exec_default_read s t h .sawtooth k hk
  rwa [blockSample_saw 256 k (by decide) hk, roundRatio_ramp_255] at hread

theorem exec_default_tri (s t : State) (h : exec (.buildRom 4 256) s = .next t) (k : Nat) (hk : k < 256) :
    Memory.read t.img (768 + k) = some (toSample (triValue Config.tieRule 256 k)) := by
  have hread := exec_default_read s t h .triangle k hk
  rwa [blockSample_tri 256 k (by decide) rfl hk] at hread

/-! ### The tie rule in an image -/

theorem genBlocks_congr (t t' : TieRule) (n : Nat) (shs : List Shape) (h : ∀ sh, gen t sh n = gen t' sh n) :
    genBlocks t n shs = genBlocks t' n shs := by
  induction shs with
  | nil => rfl
  | cons sh shs ih => rw [genBlocks, genBlocks, h sh, ih]

theorem romImage_congr (t t' : TieRule) (nb : BlockCount) (n : Nat) (h : ∀ sh, gen t sh n = gen t' sh n) :
    romImage t nb n = romImage t' nb n := by
  rw [romImage, romImage, genBlocks_congr t t' n _ h]

/-- No default block has a tie that a rule could decide (R121). -/
theorem gen_256_tie_irrelevant (t t' : TieRule) (sh : Shape) : gen t sh 256 = gen t' sh 256 := by
  cases sh with
  | sine => exact sineBlockIgnoresTieRule t t' 256
  | square => rfl
  | sawtooth =>
    rw [gen, gen, sawBlock_ok t 256 (by decide), sawBlock_ok t' 256 (by decide)]
    simp only [roundRatio_ramp_255]
  | triangle =>
    rw [gen, gen, triBlock_ok t 256 (by decide) rfl, triBlock_ok t' 256 (by decide) rfl]
    exact congrArg Except.ok (tabulate_congr 256 _ _ fun k hk => by rw [triValue_256 t k hk, triValue_256 t' k hk])

end Sys2Proof.Machine
end

section
/-! PROOFS. The statements of 20_memory.md and of 42_rom_assembly.md on the ROM Image, continued. -/

open Sys2Proof Sys2Proof.Machine

/-- Settles O50: the error table by the causes `BUILD_ROM` raises, and the whole image at a legal block size. -/
theorem buildRomOutcomes : Obligations.BuildRomOutcomes := by
  intro nb bs s
  refine ⟨_, exec_eq _ s, fun hnb => ?_, fun hnb hbs => ?_, fun hnb hbs hodd => ?_, fun hnb hbs heven => ?_⟩
  · exact finish_raises_failed _ .blockCount s (.inl ⟨hnb, rfl⟩)
  · exact finish_raises_failed _ .countTooSmall s (.inr ⟨hnb, .inl ⟨hbs, rfl⟩⟩)
  · exact finish_raises_failed _ .countOdd s (.inr ⟨hnb, .inr ⟨hodd, hbs, rfl⟩⟩)
  · rw [hnb]
    exact finish_buildRom_committed bs s hbs heven

/-- Settles O52: a valid image is the four blocks in order, and 256 splits a ten-bit address at bit 8. -/
theorem romImageAddressDecode : Obligations.RomImageAddressDecode := by
  refine ⟨fun n s t i h hvalid hi => ?_, fun s t i h => exec_default_read_bits s t h i, fun s t k h hk => ?_⟩
  · obtain ⟨xs, hr, rfl⟩ | ⟨c, -, rfl⟩ := exec_cases _ s t h
    · refine ⟨?_, ?_⟩
      · rw [commit_len_toNat xs s (commandResult_length _ xs hr)]
        exact romImage_length _ 4 _ xs hr
      · rw [commit_img, ofSamples_read]
        exact romImage_address 4 _ xs i hr hi
    · simp at hvalid
  · exact ⟨exec_default_read s t h .sine k hk, exec_default_read s t h .square k hk,
      exec_default_read s t h .sawtooth k hk, exec_default_read s t h .triangle k hk⟩

/-- Settles O53: the blocks at their bases, sample by sample from their formulas, and no block with a tie. -/
theorem defaultImageContents : Obligations.DefaultImageContents := by
  refine ⟨fun s => ?_, fun t t' => romImage_congr t t' 4 256 (gen_256_tie_irrelevant t t')⟩
  obtain ⟨xs, -, hexec⟩ := exec_default s
  have hissue : issueWord 0x80040100 s = .next (commit xs s) := by
    rw [issueWord_legal _ (.buildRom 4 256) s (by decide), hexec]
  have hsine (k : Nat) (hk : k < 256) := exec_default_read s _ hexec .sine k hk
  obtain ⟨hzero, -, hquarters, -⟩ := sineBlockCorners
  obtain ⟨hfirst, hthird⟩ := hquarters 256 (by decide) rfl
  obtain ⟨hlen, hbeyond⟩ := exec_default_len s _ hexec
  refine ⟨_, hissue, hlen, statusCommit_valid _, statusCommit_err _, fun a hlow hhigh => ?_, fun a hlow hhigh => ?_,
    exec_default_saw s _ hexec, ?_, ?_, ?_, ?_, ?_, hbeyond 1024 le_rfl⟩
  · obtain ⟨k, rfl⟩ := Nat.exists_eq_add_of_le hlow
    have hread := exec_default_square s _ hexec k (by omega)
    rwa [if_pos (by omega)] at hread
  · obtain ⟨k, rfl⟩ := Nat.exists_eq_add_of_le hlow
    have hread := exec_default_square s _ hexec (128 + k) (by omega)
    rwa [if_neg (by omega), ← Nat.add_assoc] at hread
  · exact (hsine 0 (by decide)).trans (congrArg some (hzero 256 (by decide)))
  · exact (hsine 64 (by decide)).trans (congrArg some hfirst)
  · exact (hsine 192 (by decide)).trans (congrArg some hthird)
  · exact (exec_default_tri s _ hexec 63 (by decide)).trans (by rw [triValue_256 _ 63 (by decide)]; rfl)
  · exact (exec_default_tri s _ hexec 64 (by decide)).trans (by rw [triValue_256 _ 64 (by decide)]; rfl)
end
